-- ==== Sys2Proof/Word.lean ====
section
/-! DEFINITION. The types of the machine's values (00_scope.md R4, R10), with the widths and counts of the
configuration record as numerals (Sys2Proof/Laws/Config.lean). Every value is unsigned. -/

namespace Sys2Proof

/-- A byte of memory, a general register or a timer: `V_WIDTH`, `TIMER_WIDTH` = 8 (R4). -/
abbrev Byte := BitVec 8

/-- An opcode, the index register, the program counter or a return address: 16 bits (R4; log 26). -/
abbrev Word := BitVec 16

/-- The 12-bit address field `nnn` of an opcode (30_encoding.md R61). -/
abbrev Addr12 := BitVec 12

/-- One of the four 4-bit fields of an opcode (30_encoding.md R61). -/
abbrev Nibble := BitVec 4

/-- The index of one of the `NUM_V` = 16 general registers (10_state.md R13). -/
abbrev Reg := Fin 16

/-- One of the `NUM_KEYS` = 16 logical keys (10_state.md R20). -/
abbrev Key := Fin 16

/-- A display column, `W` = 64 (10_state.md R22). -/
abbrev Column := Fin 64

/-- A display row, `H` = 32 (10_state.md R22). -/
abbrev Row := Fin 32

/-- The register that doubles as the carry, no-borrow and collision flag (10_state.md R14). -/
abbrev VF : Reg := 15

/-- The register that the indexed jump reads (41_control_flow.md R101). -/
abbrev V0 : Reg := 0

end Sys2Proof
end

