-- ==== Sys2Proof/Syntax.lean ====
section
/-! DEFINITION. The 35 instructions, one constructor for each row of spec/opcode_table.json
(30_encoding.md R63), with typed operands (40_dispatch.md R84). -/

namespace Sys2Proof

/-- An instruction. `x`, `y` are register indices, `kk` an unsigned byte, `nnn` an unsigned 12-bit
address and `n` an unsigned count (30_encoding.md R61, R62). -/
inductive Instr where
  /-- `00E0` `CLS` (R165). -/
  | cls
  /-- `00EE` `RET` (R103). -/
  | ret
  /-- `0nnn` `SYS nnn`, every `nnn` but 0x0E0 and 0x0EE (R175, R64). -/
  | sys (nnn : Addr12)
  /-- `1nnn` `JP nnn` (R100). -/
  | jp (nnn : Addr12)
  /-- `2nnn` `CALL nnn` (R102). -/
  | call (nnn : Addr12)
  /-- `3xkk` `SE Vx, kk` (R104). -/
  | seImm (x : Reg) (kk : Byte)
  /-- `4xkk` `SNE Vx, kk` (R105). -/
  | sneImm (x : Reg) (kk : Byte)
  /-- `5xy0` `SE Vx, Vy` (R106). -/
  | seReg (x y : Reg)
  /-- `6xkk` `LD Vx, kk` (R120). -/
  | ldImm (x : Reg) (kk : Byte)
  /-- `7xkk` `ADD Vx, kk` (R121). -/
  | addImm (x : Reg) (kk : Byte)
  /-- `8xy0` `LD Vx, Vy` (R122). -/
  | ldReg (x y : Reg)
  /-- `8xy1` `OR Vx, Vy` (R123). -/
  | orReg (x y : Reg)
  /-- `8xy2` `AND Vx, Vy` (R124). -/
  | andReg (x y : Reg)
  /-- `8xy3` `XOR Vx, Vy` (R125). -/
  | xorReg (x y : Reg)
  /-- `8xy4` `ADD Vx, Vy` (R126). -/
  | addReg (x y : Reg)
  /-- `8xy5` `SUB Vx, Vy` (R127). -/
  | subReg (x y : Reg)
  /-- `8xy6` `SHR Vx` (R128); the field `y` is carried and ignored (R65, R68; log 27). -/
  | shr (x y : Reg)
  /-- `8xy7` `SUBN Vx, Vy` (R129). -/
  | subnReg (x y : Reg)
  /-- `8xyE` `SHL Vx` (R130); the field `y` is carried and ignored (R65, R68; log 27). -/
  | shl (x y : Reg)
  /-- `9xy0` `SNE Vx, Vy` (R107). -/
  | sneReg (x y : Reg)
  /-- `Annn` `LD I, nnn` (R140). -/
  | ldI (nnn : Addr12)
  /-- `Bnnn` `JP V0, nnn` (R101). -/
  | jpV0 (nnn : Addr12)
  /-- `Cxkk` `RND Vx, kk` (R133). -/
  | rnd (x : Reg) (kk : Byte)
  /-- `Dxyn` `DRW Vx, Vy, n` (R166). -/
  | drw (x y : Reg) (n : Fin 16)
  /-- `Ex9E` `SKP Vx` (R149). -/
  | skp (x : Reg)
  /-- `ExA1` `SKNP Vx` (R150). -/
  | sknp (x : Reg)
  /-- `Fx07` `LD Vx, DT` (R142). -/
  | ldVxDt (x : Reg)
  /-- `Fx0A` `LD Vx, K` (R160). -/
  | ldVxK (x : Reg)
  /-- `Fx15` `LD DT, Vx` (R143). -/
  | ldDtVx (x : Reg)
  /-- `Fx18` `LD ST, Vx` (R144). -/
  | ldStVx (x : Reg)
  /-- `Fx1E` `ADD I, Vx` (R141). -/
  | addI (x : Reg)
  /-- `Fx29` `LD F, Vx` (R145). -/
  | ldF (x : Reg)
  /-- `Fx33` `LD B, Vx` (R146). -/
  | ldB (x : Reg)
  /-- `Fx55` `LD [I], Vx` (R147). -/
  | stRegs (x : Reg)
  /-- `Fx65` `LD Vx, [I]` (R148). -/
  | ldRegs (x : Reg)
  deriving DecidableEq, Repr

end Sys2Proof
end

