-- ==== Sys2Proof/WellFormed.lean ====
section
/-! DEFINITION. Which terms of `Instr` are instructions of the machine. The operand types already hold
every field to its width; what is left is the exception of the `SYS` row (30_encoding.md R64). -/

namespace Sys2Proof

/-- An operand of `SYS`: every 12-bit value but the two that are the exact rows `CLS` and `RET` (R64). -/
def sysOperandOk (nnn : Addr12) : Bool :=
  nnn != 0x0E0 && nnn != 0x0EE

/-- The instruction is one that some opcode stands for (R63, R64). -/
def Instr.wf : Instr → Bool
  | .sys nnn => sysOperandOk nnn
  | .cls | .ret => true
  | .jp _ | .call _ | .ldI _ | .jpV0 _ => true
  | .seImm _ _ | .sneImm _ _ | .ldImm _ _ | .addImm _ _ | .rnd _ _ => true
  | .seReg _ _ | .sneReg _ _ | .ldReg _ _ | .orReg _ _ | .andReg _ _ | .xorReg _ _ => true
  | .addReg _ _ | .subReg _ _ | .shr _ _ | .subnReg _ _ | .shl _ _ => true
  | .drw _ _ _ => true
  | .skp _ | .sknp _ | .ldVxDt _ | .ldVxK _ | .ldDtVx _ | .ldStVx _ => true
  | .addI _ | .ldF _ | .ldB _ | .stRegs _ | .ldRegs _ => true

end Sys2Proof
end

