-- ==== Sys2Proof/Decode.lean ====
section
/-! DEFINITION. Fields, the opcode map, the decoder, the encoder and the listing syntax
(30_encoding.md R60 to R70; 40_dispatch.md R84). Which word is which instruction, and where `y` and
`n` stand, is UNVERIFIED for 31 of the 35 rows: the spec marks it as general knowledge (log 8). -/

namespace Sys2Proof

/-! ### Fields of an opcode (R61) -/

/-- `a`, bits 15:12: the class. -/
def fieldA (op : Word) : Nibble := op.extractLsb 15 12

/-- `x` (also `b`), bits 11:8. -/
def fieldX (op : Word) : Nibble := op.extractLsb 11 8

/-- `y` (also `c`), bits 7:4. -/
def fieldY (op : Word) : Nibble := op.extractLsb 7 4

/-- `n` (also `d`), bits 3:0. -/
def fieldN (op : Word) : Nibble := op.extractLsb 3 0

/-- `kk`, bits 7:0. -/
def fieldKK (op : Word) : Byte := op.extractLsb 7 0

/-- `nnn`, bits 11:0. -/
def fieldNNN (op : Word) : Addr12 := op.extractLsb 11 0

/-- The 4-bit value as a register index or count (R62: used directly). -/
def ofNibble (b : Nibble) : Fin 16 := b.toFin

/-- A register index or count as a 4-bit field. -/
def toNibble (r : Fin 16) : Nibble := BitVec.ofFin r

/-! ### Decoder (R64, R65, R84) -/

/-- Class 0: the exact rows first, then `SYS` (R64). -/
def decodeClass0 (op : Word) : Option Instr :=
  match fieldNNN op with
  | 0x0E0#12 => some .cls
  | 0x0EE#12 => some .ret
  | nnn => some (.sys nnn)

/-- Class 8: the low nibble selects; six values of it select nothing, and 6 and E ignore `y` (R65). -/
def decodeClass8 (op : Word) : Option Instr :=
  let x := ofNibble (fieldX op)
  let y := ofNibble (fieldY op)
  match fieldN op with
  | 0x0#4 => some (.ldReg x y)
  | 0x1#4 => some (.orReg x y)
  | 0x2#4 => some (.andReg x y)
  | 0x3#4 => some (.xorReg x y)
  | 0x4#4 => some (.addReg x y)
  | 0x5#4 => some (.subReg x y)
  | 0x6#4 => some (.shr x y)
  | 0x7#4 => some (.subnReg x y)
  | 0xE#4 => some (.shl x y)
  | _ => none

/-- Class E: the whole low byte selects (R65). -/
def decodeClassE (op : Word) : Option Instr :=
  let x := ofNibble (fieldX op)
  match fieldKK op with
  | 0x9E#8 => some (.skp x)
  | 0xA1#8 => some (.sknp x)
  | _ => none

/-- Class F: the whole low byte selects (R65). -/
def decodeClassF (op : Word) : Option Instr :=
  let x := ofNibble (fieldX op)
  match fieldKK op with
  | 0x07#8 => some (.ldVxDt x)
  | 0x0A#8 => some (.ldVxK x)
  | 0x15#8 => some (.ldDtVx x)
  | 0x18#8 => some (.ldStVx x)
  | 0x1E#8 => some (.addI x)
  | 0x29#8 => some (.ldF x)
  | 0x33#8 => some (.ldB x)
  | 0x55#8 => some (.stRegs x)
  | 0x65#8 => some (.ldRegs x)
  | _ => none

/-- The instruction that an opcode stands for; `none` exactly for the unmatched words of R66. -/
def decode (op : Word) : Option Instr :=
  let x := ofNibble (fieldX op)
  let y := ofNibble (fieldY op)
  match fieldA op with
  | 0x0#4 => decodeClass0 op
  | 0x1#4 => some (.jp (fieldNNN op))
  | 0x2#4 => some (.call (fieldNNN op))
  | 0x3#4 => some (.seImm x (fieldKK op))
  | 0x4#4 => some (.sneImm x (fieldKK op))
  | 0x5#4 => if fieldN op = 0 then some (.seReg x y) else none
  | 0x6#4 => some (.ldImm x (fieldKK op))
  | 0x7#4 => some (.addImm x (fieldKK op))
  | 0x8#4 => decodeClass8 op
  | 0x9#4 => if fieldN op = 0 then some (.sneReg x y) else none
  | 0xA#4 => some (.ldI (fieldNNN op))
  | 0xB#4 => some (.jpV0 (fieldNNN op))
  | 0xC#4 => some (.rnd x (fieldKK op))
  | 0xD#4 => some (.drw x y (ofNibble (fieldN op)))
  | 0xE#4 => decodeClassE op
  | 0xF#4 => decodeClassF op
  | _ => none

/-! ### Decoding bytes (R44, R60) -/

/-- Why bytes are no instruction. -/
inductive DecodeError where
  /-- Fewer than the two bytes of an instruction (R60). -/
  | truncated
  /-- The opcode selects no row of the map (R66); the machine raises `UnimplementedOpcode` for it. -/
  | unimplementedOpcode (op : Word)
  deriving DecidableEq, Repr

/-- Two bytes as one opcode, the byte at the lower address in bits 15:8 (20_memory.md R44). -/
def joinBytes (hi lo : Byte) : Word := hi ++ lo

/-- The byte of an opcode that stands at the lower address (R44). -/
def highByte (op : Word) : Byte := op.extractLsb 15 8

/-- The byte of an opcode that stands at the higher address (R44). -/
def lowByte (op : Word) : Byte := op.extractLsb 7 0

/-- The first instruction of a byte sequence and the bytes after it. -/
def decodeBytes : List Byte → Except DecodeError (Instr × List Byte)
  | hi :: lo :: rest =>
    match decode (joinBytes hi lo) with
    | some i => .ok (i, rest)
    | none => .error (.unimplementedOpcode (joinBytes hi lo))
  | _ => .error .truncated

/-- A table word as the hardware stores it. An instruction has 16 bits, so the bits from `nbits` up
are 0 and nothing above bit 15 is kept. -/
def tableWord (nbits w : Nat) : Word := BitVec.ofNat 16 (w % 2 ^ nbits)

/-- The instruction the decoder reads from a word of spec/opcode_table.json. -/
def decodeTableWord (nbits w : Nat) : Option Instr :=
  match decodeBytes [highByte (tableWord nbits w), lowByte (tableWord nbits w)] with
  | .ok (i, _) => some i
  | .error _ => none

/-! ### Encoder (R63) -/

/-- A word of four 4-bit fields `a b c d` (R61). -/
def wordXYN (a x y n : Nibble) : Word := a ++ x ++ y ++ n

/-- A word of a class, a register field and a byte (R61). -/
def wordXKK (a x : Nibble) (kk : Byte) : Word := a ++ x ++ kk

/-- A word of a class and an address (R61). -/
def wordNNN (a : Nibble) (nnn : Addr12) : Word := a ++ nnn

/-- The opcode of an instruction, from the "enc" column of R63. -/
def encode : Instr → Word
  | .cls => wordNNN 0x0 0x0E0
  | .ret => wordNNN 0x0 0x0EE
  | .sys nnn => wordNNN 0x0 nnn
  | .jp nnn => wordNNN 0x1 nnn
  | .call nnn => wordNNN 0x2 nnn
  | .seImm x kk => wordXKK 0x3 (toNibble x) kk
  | .sneImm x kk => wordXKK 0x4 (toNibble x) kk
  | .seReg x y => wordXYN 0x5 (toNibble x) (toNibble y) 0x0
  | .ldImm x kk => wordXKK 0x6 (toNibble x) kk
  | .addImm x kk => wordXKK 0x7 (toNibble x) kk
  | .ldReg x y => wordXYN 0x8 (toNibble x) (toNibble y) 0x0
  | .orReg x y => wordXYN 0x8 (toNibble x) (toNibble y) 0x1
  | .andReg x y => wordXYN 0x8 (toNibble x) (toNibble y) 0x2
  | .xorReg x y => wordXYN 0x8 (toNibble x) (toNibble y) 0x3
  | .addReg x y => wordXYN 0x8 (toNibble x) (toNibble y) 0x4
  | .subReg x y => wordXYN 0x8 (toNibble x) (toNibble y) 0x5
  | .shr x y => wordXYN 0x8 (toNibble x) (toNibble y) 0x6
  | .subnReg x y => wordXYN 0x8 (toNibble x) (toNibble y) 0x7
  | .shl x y => wordXYN 0x8 (toNibble x) (toNibble y) 0xE
  | .sneReg x y => wordXYN 0x9 (toNibble x) (toNibble y) 0x0
  | .ldI nnn => wordNNN 0xA nnn
  | .jpV0 nnn => wordNNN 0xB nnn
  | .rnd x kk => wordXKK 0xC (toNibble x) kk
  | .drw x y n => wordXYN 0xD (toNibble x) (toNibble y) (toNibble n)
  | .skp x => wordXKK 0xE (toNibble x) 0x9E
  | .sknp x => wordXKK 0xE (toNibble x) 0xA1
  | .ldVxDt x => wordXKK 0xF (toNibble x) 0x07
  | .ldVxK x => wordXKK 0xF (toNibble x) 0x0A
  | .ldDtVx x => wordXKK 0xF (toNibble x) 0x15
  | .ldStVx x => wordXKK 0xF (toNibble x) 0x18
  | .addI x => wordXKK 0xF (toNibble x) 0x1E
  | .ldF x => wordXKK 0xF (toNibble x) 0x29
  | .ldB x => wordXKK 0xF (toNibble x) 0x33
  | .stRegs x => wordXKK 0xF (toNibble x) 0x55
  | .ldRegs x => wordXKK 0xF (toNibble x) 0x65

/-! ### The opcode map as a table (R63) -/

/-- One row of the map: an opcode is matched when its bits under the mask are the pattern (R64). -/
structure OpRow where
  mask : Word
  pattern : Word
  deriving DecidableEq, Repr

/-- The opcode is matched by the row (R64). -/
def OpRow.covers (r : OpRow) (op : Word) : Bool := op &&& r.mask == r.pattern

/-- The row of the map that an instruction belongs to (R63, columns "mask" and "match"). -/
def Instr.row : Instr → OpRow
  | .cls => ⟨0xFFFF, 0x00E0⟩
  | .ret => ⟨0xFFFF, 0x00EE⟩
  | .sys _ => ⟨0xF000, 0x0000⟩
  | .jp _ => ⟨0xF000, 0x1000⟩
  | .call _ => ⟨0xF000, 0x2000⟩
  | .seImm _ _ => ⟨0xF000, 0x3000⟩
  | .sneImm _ _ => ⟨0xF000, 0x4000⟩
  | .seReg _ _ => ⟨0xF00F, 0x5000⟩
  | .ldImm _ _ => ⟨0xF000, 0x6000⟩
  | .addImm _ _ => ⟨0xF000, 0x7000⟩
  | .ldReg _ _ => ⟨0xF00F, 0x8000⟩
  | .orReg _ _ => ⟨0xF00F, 0x8001⟩
  | .andReg _ _ => ⟨0xF00F, 0x8002⟩
  | .xorReg _ _ => ⟨0xF00F, 0x8003⟩
  | .addReg _ _ => ⟨0xF00F, 0x8004⟩
  | .subReg _ _ => ⟨0xF00F, 0x8005⟩
  | .shr _ _ => ⟨0xF00F, 0x8006⟩
  | .subnReg _ _ => ⟨0xF00F, 0x8007⟩
  | .shl _ _ => ⟨0xF00F, 0x800E⟩
  | .sneReg _ _ => ⟨0xF00F, 0x9000⟩
  | .ldI _ => ⟨0xF000, 0xA000⟩
  | .jpV0 _ => ⟨0xF000, 0xB000⟩
  | .rnd _ _ => ⟨0xF000, 0xC000⟩
  | .drw _ _ _ => ⟨0xF000, 0xD000⟩
  | .skp _ => ⟨0xF0FF, 0xE09E⟩
  | .sknp _ => ⟨0xF0FF, 0xE0A1⟩
  | .ldVxDt _ => ⟨0xF0FF, 0xF007⟩
  | .ldVxK _ => ⟨0xF0FF, 0xF00A⟩
  | .ldDtVx _ => ⟨0xF0FF, 0xF015⟩
  | .ldStVx _ => ⟨0xF0FF, 0xF018⟩
  | .addI _ => ⟨0xF0FF, 0xF01E⟩
  | .ldF _ => ⟨0xF0FF, 0xF029⟩
  | .ldB _ => ⟨0xF0FF, 0xF033⟩
  | .stRegs _ => ⟨0xF0FF, 0xF055⟩
  | .ldRegs _ => ⟨0xF0FF, 0xF065⟩

/-! ### Listing syntax (R68): destination first; a word that is no instruction is `DW 0xhhhh` -/

/-- `digits` hexadecimal digits of a number, most significant first. -/
def hexDigits : Nat → Nat → String
  | 0, _ => ""
  | digits + 1, v => hexDigits digits (v / 16) ++ (String.ofList (Nat.toDigits 16 (v % 16))).toUpper

/-- A register in a listing: `V0` to `VF`. -/
def listReg (x : Reg) : String := "V" ++ hexDigits 1 x.val

/-- A mnemonic with two operands. -/
def list2 (m p q : String) : String := m ++ " " ++ p ++ ", " ++ q

/-- An instruction in the syntax of R68. DESIGN CHOICE: R68 says only that `kk`, `nnn` and `n` are numbers;
they are printed as `0x` and 2, 3 and 1 hexadecimal digits, and a shift shows its `y` when it is not 0
(log 36). -/
def Instr.listing : Instr → String
  | .cls => "CLS"
  | .ret => "RET"
  | .sys nnn => "SYS 0x" ++ hexDigits 3 nnn.toNat
  | .jp nnn => "JP 0x" ++ hexDigits 3 nnn.toNat
  | .call nnn => "CALL 0x" ++ hexDigits 3 nnn.toNat
  | .seImm x kk => list2 "SE" (listReg x) ("0x" ++ hexDigits 2 kk.toNat)
  | .sneImm x kk => list2 "SNE" (listReg x) ("0x" ++ hexDigits 2 kk.toNat)
  | .seReg x y => list2 "SE" (listReg x) (listReg y)
  | .ldImm x kk => list2 "LD" (listReg x) ("0x" ++ hexDigits 2 kk.toNat)
  | .addImm x kk => list2 "ADD" (listReg x) ("0x" ++ hexDigits 2 kk.toNat)
  | .ldReg x y => list2 "LD" (listReg x) (listReg y)
  | .orReg x y => list2 "OR" (listReg x) (listReg y)
  | .andReg x y => list2 "AND" (listReg x) (listReg y)
  | .xorReg x y => list2 "XOR" (listReg x) (listReg y)
  | .addReg x y => list2 "ADD" (listReg x) (listReg y)
  | .subReg x y => list2 "SUB" (listReg x) (listReg y)
  | .shr x y => if y = 0 then "SHR " ++ listReg x else list2 "SHR" (listReg x) (listReg y)
  | .subnReg x y => list2 "SUBN" (listReg x) (listReg y)
  | .shl x y => if y = 0 then "SHL " ++ listReg x else list2 "SHL" (listReg x) (listReg y)
  | .sneReg x y => list2 "SNE" (listReg x) (listReg y)
  | .ldI nnn => list2 "LD" "I" ("0x" ++ hexDigits 3 nnn.toNat)
  | .jpV0 nnn => list2 "JP" "V0" ("0x" ++ hexDigits 3 nnn.toNat)
  | .rnd x kk => list2 "RND" (listReg x) ("0x" ++ hexDigits 2 kk.toNat)
  | .drw x y n => list2 "DRW" (listReg x) (listReg y) ++ ", 0x" ++ hexDigits 1 n.val
  | .skp x => "SKP " ++ listReg x
  | .sknp x => "SKNP " ++ listReg x
  | .ldVxDt x => list2 "LD" (listReg x) "DT"
  | .ldVxK x => list2 "LD" (listReg x) "K"
  | .ldDtVx x => list2 "LD" "DT" (listReg x)
  | .ldStVx x => list2 "LD" "ST" (listReg x)
  | .addI x => list2 "ADD" "I" (listReg x)
  | .ldF x => list2 "LD" "F" (listReg x)
  | .ldB x => list2 "LD" "B" (listReg x)
  | .stRegs x => list2 "LD" "[I]" (listReg x)
  | .ldRegs x => list2 "LD" (listReg x) "[I]"

/-- A word in a listing (R68). -/
def wordListing (op : Word) : String :=
  match decode op with
  | some i => i.listing
  | none => "DW 0x" ++ hexDigits 4 op.toNat

end Sys2Proof
end

