-- ==== Sys2Proof/Config.lean ====
section
/-! DEFINITION. The implementation parameters (00_scope.md R4) and the one free value (42_alu.md R133). -/

namespace Sys2Proof

/-- The sixteen parameters, in the order of the table of R4. A definition that computes with one names it
here. A type has its width or count as a numeral, so that no term carries a cast; the theorems of
Sys2Proof/Laws/Config.lean hold each such numeral to its field. -/
structure Config where
  /-- `MEM_SIZE`: valid addresses are 0 to `memSize - 1` (log 12). -/
  memSize : Nat := 4095
  /-- `FONT_BASE`: the address of glyph 0. -/
  fontBase : Nat := 0
  /-- `FONT_SIZE`: bytes of font, 16 glyphs of 5 bytes. -/
  fontSize : Nat := 80
  /-- `GLYPH_STRIDE`: bytes of one glyph. -/
  glyphStride : Nat := 5
  /-- `FONT`: the glyph bitmaps (10_state.md R31; log 10). -/
  font : List Byte
  /-- `PROG_BASE`: the load address and the reset value of `pc`. -/
  progBase : Nat := 0x200
  /-- `NUM_V`: general registers. -/
  numV : Nat := 16
  /-- `V_WIDTH`: bits of a general register. -/
  vWidth : Nat := 8
  /-- `I_WIDTH`: bits of the index register. -/
  iWidth : Nat := 16
  /-- `PC_WIDTH`: bits of `pc` and of every stack entry (log 26). -/
  pcWidth : Nat := 16
  /-- `STACK_DEPTH`: the default of the OPEN parameter, unbounded. The value a machine is built with
  stands in `State.stackDepth` (log 3). -/
  stackDepth : Option Nat := none
  /-- `W`: display columns. -/
  displayW : Nat := 64
  /-- `H`: display rows. -/
  displayH : Nat := 32
  /-- `NUM_KEYS`: logical keys. -/
  numKeys : Nat := 16
  /-- `TIMER_WIDTH`: bits of `DT` and of `ST`. -/
  timerWidth : Nat := 8
  /-- `INSTR_BYTES`: the instruction width. -/
  instrBytes : Nat := 2
  deriving DecidableEq, Repr

/-- The customary hexadecimal font, glyphs 0 to 7 (10_state.md R31).
UNVERIFIED: the spec marks these bytes as general knowledge (log 10). -/
def Config.fontLow : List Byte :=
  [0xF0, 0x90, 0x90, 0x90, 0xF0] ++ [0x20, 0x60, 0x20, 0x20, 0x70] ++
  [0xF0, 0x10, 0xF0, 0x80, 0xF0] ++ [0xF0, 0x10, 0xF0, 0x10, 0xF0] ++
  [0x90, 0x90, 0xF0, 0x10, 0x10] ++ [0xF0, 0x80, 0xF0, 0x10, 0xF0] ++
  [0xF0, 0x80, 0xF0, 0x90, 0xF0] ++ [0xF0, 0x10, 0x20, 0x40, 0x40]

/-- The customary hexadecimal font, glyphs 8 to F (10_state.md R31; log 10). -/
def Config.fontHigh : List Byte :=
  [0xF0, 0x90, 0xF0, 0x90, 0xF0] ++ [0xF0, 0x90, 0xF0, 0x10, 0xF0] ++
  [0xF0, 0x90, 0xF0, 0x90, 0x90] ++ [0xE0, 0x90, 0xE0, 0x90, 0xE0] ++
  [0xF0, 0x80, 0x80, 0x80, 0xF0] ++ [0xE0, 0x90, 0x90, 0x90, 0xE0] ++
  [0xF0, 0x80, 0xF0, 0x80, 0xF0] ++ [0xF0, 0x80, 0xF0, 0x80, 0x80]

/-- The parameters of this hardware (R4). -/
def config : Config where
  font := Config.fontLow ++ Config.fontHigh

/-- THE FREE VALUE. The byte on `RAND_IN` at the `k`-th draw for which the host has lined no byte up:
any byte, under no law (42_alu.md R133, decision D27; log 2). It has no body on purpose. -/
opaque Config.freeByte : Nat → Byte

end Sys2Proof
end

