-- ==== Sys2Proof/Machine/State.lean ====
section
/-! DEFINITION. The state of the block (10_state.md R13 to R25), the reasons a step can stop
(60_exceptions.md R180), the commands of the host (00_scope.md R5) and the reset state
(70_reset_and_hazards.md R221). -/

namespace Sys2Proof.Machine

/-- What an access to memory was for (60_exceptions.md R180, cause 4). -/
inductive AccessKind where
  | fetch
  | read
  | write
  deriving DecidableEq, Repr

/-- The errors of `EXECUTE` and `STEP` (R180). Each is the machine's own `Err` result, not a limit of
the model; R187 says that nothing has changed when one is returned. The model ends the run there, as
R188 says it should, where a host could go on with another command: SAFE (log 4). -/
inductive Fault where
  /-- Code 1, raised by decode for a word of no row of the opcode map (R181). Safe. -/
  | unimplementedOpcode (op : Word) (pc : Word)
  /-- Code 2, raised by `RET` when the call stack is empty (R182). Safe. -/
  | stackUnderflow (pc : Word)
  /-- Code 3, raised by `LD F, Vx` when `V[x]` is above 15 (R183). Safe. -/
  | invalidFontDigit (digit : Byte) (pc : Word)
  /-- Code 4, raised by the fetch, `DRW`, `LD B`, `LD [I]` and `LD Vx, [I]` for an address at or above
  `MEM_SIZE`; `addr` is the lowest such address, a number up to 65550 (R184). Safe (log 13). -/
  | addressOutOfRange (addr : Nat) (kind : AccessKind)
  /-- Code 5, raised by `LD B` and `LD [I]` for an address of the font (R185). Safe (log 14). -/
  | writeProtected (addr : Nat)
  /-- Code 6, raised by `SKP` and `SKNP` when `V[x]` is above 15 (R190). Safe (log 20). -/
  | invalidKeyIndex (key : Byte) (pc : Word)
  /-- Code 7, raised by `CALL` when the stack holds `STACK_DEPTH` entries, only when that parameter is a
  number (R186). Safe (log 3). -/
  | stackOverflow (pc : Word)
  deriving DecidableEq, Repr

/-- The reasons the model has no meaning to give. No meaning of this model answers with one. -/
inductive Refusal where
  /-- Raised by `exec` for an instruction that has no meaning yet: no arm does. Safe. -/
  | notModelled (mnemonic : String)
  deriving DecidableEq, Repr

/-- The commands that change state (00_scope.md R5). Each is atomic (R8). -/
inductive Command where
  /-- `RESET` (70_reset_and_hazards.md R220). -/
  | reset
  /-- `LOAD(bytes)` (60_exceptions.md R203). -/
  | load (bytes : List Byte)
  /-- `EXECUTE(op)` (40_dispatch.md R82). -/
  | execute (op : Word)
  /-- `STEP` (40_dispatch.md R83). -/
  | step
  /-- `KEY_DOWN(k)` (60_exceptions.md R200). -/
  | keyDown (k : Key)
  /-- `KEY_UP(k)` (60_exceptions.md R201). -/
  | keyUp (k : Key)
  /-- `TICK` (60_exceptions.md R202). -/
  | tick
  deriving DecidableEq, Repr

/-- `MEM` (10_state.md R23) as the list of the bytes that differ from their reset value, addresses
strictly rising (`Memory.wf`). What an unlisted address reads as is `Memory.resetByte` (log 7). -/
abbrev Memory := List Host.Cell

/-- `FB` (10_state.md R22): row `y` at index `y`, column `x` at index `x` of the row. -/
abbrev FrameBuffer := Vector (Vector Bool 64) 32

/-- The block (R25, a closed list) and, after it, the model's own fields: the parameter the machine is
built with and the host's side of the interface. -/
structure State where
  /-- General registers `V[0]`..`V[15]` (R13). -/
  v : Vector Byte 16
  /-- Index register `I` (R15). -/
  i : Word
  /-- Program counter (R16). -/
  pc : Word
  /-- Call stack, the most recently pushed entry first (R17). -/
  stack : List Word
  /-- Delay timer `DT` (R18). -/
  dt : Byte
  /-- Sound timer `ST` (R19). -/
  st : Byte
  /-- Key vector `K`: the key is down (R20). -/
  keys : Vector Bool 16
  /-- Wait latch `WAIT` (R21). -/
  wait : Option Reg
  /-- Framebuffer `FB` (R22). -/
  fb : FrameBuffer
  /-- Memory `MEM` (R23). -/
  mem : Memory
  /-- THE MODEL'S OWN. The OPEN parameter `STACK_DEPTH` this machine was built with (00_scope.md R4,
  60_exceptions.md R186); nothing changes it (log 3). -/
  stackDepth : Option Nat
  /-- THE MODEL'S OWN. The commands the host issues next, oldest first; when there is none the host
  issues `STEP` (00_scope.md R8; log 1). -/
  pending : List Command
  /-- THE MODEL'S OWN. The bytes the host presents on `RAND_IN` next, one a draw (00_scope.md R6; log 2). -/
  randIn : List Byte
  /-- THE MODEL'S OWN. How many free bytes have been drawn (42_alu.md R133; log 2). -/
  draws : Nat
  deriving DecidableEq, Repr

/-- The block after `RESET` (70_reset_and_hazards.md R221), with the host's side empty and the default
of `STACK_DEPTH`: the model's choices for its own fields (logs 1, 2, 3). -/
def State.reset : State where
  v := Vector.replicate config.numV 0
  i := 0
  pc := BitVec.ofNat _ config.progBase
  stack := []
  dt := 0
  st := 0
  keys := Vector.replicate config.numKeys false
  wait := none
  fb := Vector.replicate config.displayH (Vector.replicate config.displayW false)
  mem := []
  stackDepth := config.stackDepth
  pending := []
  randIn := []
  draws := 0

end Sys2Proof.Machine
end

