-- ==== Sys2Proof/Machine/Ops.lean ====
section
/-! DEFINITION. The named operations over memory, registers, stack, timers and keys, and raising an
error (00_scope.md R11; 20_memory.md; 60_exceptions.md). -/

namespace Sys2Proof.Machine

/-! ### Memory -/

/-- What an address that is not listed reads as: its content at reset, `FONT` in the font region and 0
elsewhere (10_state.md R23, R31). -/
def Memory.resetByte (a : Nat) : Byte :=
  if config.fontBase ≤ a ∧ a < config.fontBase + config.fontSize then
    config.font.getD (a - config.fontBase) 0
  else 0

/-- The byte at an address. That the address exists is checked apart (`readFault`). -/
def Memory.read : Memory → Nat → Byte
  | [], a => Memory.resetByte a
  | (b, w) :: rest, a => if b = a then w else Memory.read rest a

/-- A cell put at its place in a list of rising addresses. -/
def Memory.insert (a : Nat) (w : Byte) : Memory → Memory
  | [] => [(a, w)]
  | (b, u) :: rest => if a < b then (a, w) :: (b, u) :: rest else (b, u) :: Memory.insert a w rest

/-- One byte written and nothing else (20_memory.md R46). Writing what an unlisted address reads as
removes the entry, so that equal memories are equal lists. -/
def Memory.write (m : Memory) (a : Nat) (w : Byte) : Memory :=
  let others := m.filter fun c => c.1 != a
  if w = Memory.resetByte a then others else Memory.insert a w others

/-- Bytes written at `a`, `a + 1`, ... in this order. -/
def Memory.writeBytes : Memory → Nat → List Byte → Memory
  | m, _, [] => m
  | m, a, w :: ws => Memory.writeBytes (m.write a w) (a + 1) ws

/-- The `n` bytes at `a`, `a + 1`, ... -/
def Memory.readBytes (m : Memory) (a n : Nat) : List Byte :=
  (List.range n).map fun k => m.read (a + k)

/-- The canonical form: addresses strictly rising, and no entry equal to what an unlisted address reads
as. -/
abbrev Memory.wf (m : Memory) : Prop :=
  m.Pairwise (fun c d => c.1 < d.1) ∧ ∀ c ∈ m, c.2 ≠ Memory.resetByte c.1

/-! ### Raising an error, and the checks of memory accesses -/

/-- `raise E(info)`: the command ends with `Err` and no state changes (00_scope.md R11;
60_exceptions.md R187, R193). This is all there is of taking an exception on this machine: no state is
saved, no mode changes and control goes nowhere. There is no return from one either (R194). -/
def raise (f : Fault) : Host.Outcome State Fault Refusal := .fault f

/-- The check of a read or a fetch of one byte (20_memory.md R45, R47). -/
def readFault (kind : AccessKind) (a : Nat) : Option Fault :=
  if config.memSize ≤ a then some (.addressOutOfRange a kind) else none

/-- The check of a store of one byte: the font first, then the end of memory (R46, R48). -/
def writeFault (a : Nat) : Option Fault :=
  if a < config.fontSize then some (.writeProtected a)
  else if config.memSize ≤ a then some (.addressOutOfRange a .write)
  else none

/-- The error of the lowest failing address of `n` addresses from `a` up (20_memory.md R54;
60_exceptions.md R191). -/
def firstFault (check : Nat → Option Fault) : Nat → Nat → Option Fault
  | _, 0 => none
  | a, n + 1 =>
    match check a with
    | some f => some f
    | none => firstFault check (a + 1) n

/-- `FETCH`: the big-endian word at `pc`, or the error of the lower failing address of its two bytes;
it changes nothing and does not look at `WAIT` (40_dispatch.md R80; 20_memory.md R44). -/
def fetch (s : State) : Except Fault Word :=
  match firstFault (readFault .fetch) s.pc.toNat config.instrBytes with
  | some f => .error f
  | none => .ok (joinBytes (s.mem.read s.pc.toNat) (s.mem.read (s.pc.toNat + 1)))

/-- The numeric code of a cause (60_exceptions.md R180; log 32). -/
def Fault.code : Fault → Nat
  | .unimplementedOpcode _ _ => 1
  | .stackUnderflow _ => 2
  | .invalidFontDigit _ _ => 3
  | .addressOutOfRange _ _ => 4
  | .writeProtected _ => 5
  | .invalidKeyIndex _ _ => 6
  | .stackOverflow _ => 7

/-- The grade of a cause, which is advice to the host: the block does the same for both
(60_exceptions.md R189). The spec grades the first recoverable at the caller's discretion and the next
five fatal (R181 to R185, R190). DESIGN CHOICE: it gives `StackOverflow` no grade (R186), and the model
calls it fatal like the error at the other end of the stack (log 32). -/
def Fault.advisedFatal : Fault → Bool
  | .unimplementedOpcode _ _ => false
  | .stackUnderflow _ | .invalidFontDigit _ _ | .addressOutOfRange _ _ => true
  | .writeProtected _ | .invalidKeyIndex _ _ | .stackOverflow _ => true

/-! ### Registers and the other state: one accessor each -/

/-- `V[x]` (10_state.md R13). -/
def State.reg (s : State) (x : Reg) : Byte := s.v[x.val]

/-- `V[x] <- w`: exactly the 8 bits given, no other register (R13). -/
def State.setReg (s : State) (x : Reg) (w : Byte) : State := { s with v := s.v.set x.val w }

/-- All sixteen registers at once. -/
def State.setRegs (s : State) (v : Vector Byte 16) : State := { s with v := v }

/-- `I <- w` (R15). -/
def State.setI (s : State) (w : Word) : State := { s with i := w }

/-- `pc <- w` (R16). -/
def State.setPc (s : State) (w : Word) : State := { s with pc := w }

/-- `DT <- w` (R18). -/
def State.setDt (s : State) (w : Byte) : State := { s with dt := w }

/-- `ST <- w` (R19). -/
def State.setSt (s : State) (w : Byte) : State := { s with st := w }

/-- The key-down bit of a key (R20). -/
def State.key (s : State) (k : Key) : Bool := s.keys[k.val]

/-- `K[k] <- down` (R20). -/
def State.setKey (s : State) (k : Key) (down : Bool) : State :=
  { s with keys := s.keys.set k.val down }

/-- `WAIT <- w` (R21). -/
def State.setWait (s : State) (w : Option Reg) : State := { s with wait := w }

/-- `FB[x, y]` (R22). -/
def FrameBuffer.pixel (fb : FrameBuffer) (x : Column) (y : Row) : Bool := (fb[y.val])[x.val]

/-- `FB[x, y] <- b` (R22). -/
def FrameBuffer.setPixel (fb : FrameBuffer) (x : Column) (y : Row) (b : Bool) : FrameBuffer :=
  Vector.set fb y.val ((fb[y.val]).set x.val b)

/-- The framebuffer with all 2048 pixels 0. -/
def FrameBuffer.clear : FrameBuffer :=
  Vector.replicate config.displayH (Vector.replicate config.displayW false)

/-- A new framebuffer. -/
def State.setFb (s : State) (fb : FrameBuffer) : State := { s with fb := fb }

/-- New memory contents. -/
def State.setMem (s : State) (m : Memory) : State := { s with mem := m }

/-- The byte of memory at an address. -/
def State.byteAt (s : State) (a : Nat) : Byte := s.mem.read a

/-- Bytes stored at `a`, `a + 1`, ...; every address has been checked. -/
def State.storeBytes (s : State) (a : Nat) (ws : List Byte) : State :=
  s.setMem (s.mem.writeBytes a ws)

/-! ### Program counter (40_dispatch.md R85) -/

/-- The address `k` instructions after the one at `pc`, `INSTR_BYTES` bytes each, modulo 65536
(10_state.md R16; log 26). -/
def State.pcAhead (s : State) (k : Nat) : Word := s.pc + BitVec.ofNat _ (k * config.instrBytes)

/-- `pc <- pc + 2`. -/
def State.advance (s : State) : State := s.setPc (s.pcAhead 1)

/-- `pc <- pc + 4` when the condition of a skip holds, `pc <- pc + 2` otherwise. -/
def State.skipIf (s : State) (c : Bool) : State := s.setPc (if c then s.pcAhead 2 else s.pcAhead 1)

/-! ### Call stack (10_state.md R17) -/

/-- A new call stack. -/
def State.setStack (s : State) (stack : List Word) : State := { s with stack := stack }

/-- `STACK_DEPTH` is a number and the stack holds that many entries (41_control_flow.md R102). -/
def State.stackFull (s : State) : Bool := s.stackDepth == some s.stack.length

/-- `push(w)`. -/
def State.push (s : State) (w : Word) : State := s.setStack (w :: s.stack)

/-! ### Random input (42_alu.md R133) -/

/-- `draw_byte()`: the byte on `RAND_IN` now. It is the next byte the host has lined up; where it has
lined none up it is free, and the counter makes each draw a new one (log 2). -/
def State.drawByte (s : State) : Byte × State :=
  match s.randIn with
  | w :: rest => (w, { s with randIn := rest })
  | [] => (Config.freeByte s.draws, { s with draws := s.draws + 1 })

/-! ### Timers (60_exceptions.md R202) -/

/-- A timer after one `TICK`: one less, saturating at zero. -/
def ticked (w : Byte) : Byte := if w = 0 then 0 else w - 1

end Sys2Proof.Machine
end

