-- ==== Sys2Proof/Machine/Flags.lean ====
section
/-! DEFINITION. Every value the machine writes to `VF` as a flag (10_state.md R27), and the order of the
two writes of an instruction that writes a result and the flag (40_dispatch.md R86). -/

namespace Sys2Proof.Machine

/-- A flag as the byte that `VF` holds: 0 or 1 (R14). -/
def flagByte (b : Bool) : Byte := if b then 1 else 0

/-- Carry out of an 8-bit addition: the unsigned sum exceeds 255 (R27, 42_alu.md R126). -/
def carryOut (p q : Byte) : Bool := decide (255 < p.toNat + q.toNat)

/-- No borrow in `p - q` (R27, 42_alu.md R127, R129). -/
def noBorrow (p q : Byte) : Bool := decide (q.toNat ≤ p.toNat)

/-- The bit a shift right by one drops: bit 0 before the shift (R27, 42_alu.md R128). -/
def droppedRight (p : Byte) : Bool := p.getLsbD 0

/-- The bit a shift left by one drops: bit 7 before the shift (R27, 42_alu.md R130). -/
def droppedLeft (p : Byte) : Bool := p.getLsbD 7

/-- `V[x] <- w`, then `VF <- flag`: the flag write is the later one (R86 (b); log 17). -/
def State.setRegThenFlag (s : State) (x : Reg) (w : Byte) (flag : Bool) : State :=
  (s.setReg x w).setReg VF (flagByte flag)

end Sys2Proof.Machine
end

