-- ==== Sys2Proof/Machine/Alu.lean ====
section
/-! DEFINITION. Register load, arithmetic, logic and random (42_alu.md R120 to R133). Eight-bit results
wrap modulo 256 and nothing traps (R131). -/

namespace Sys2Proof.Machine

/-- `LD Vx, kk` (R120). -/
def execLdImm (x : Reg) (kk : Byte) (s : State) : Host.Outcome State Fault Refusal :=
  .next (s.setReg x kk).advance

/-- `ADD Vx, kk`: no flag (R121; log 19). -/
def execAddImm (x : Reg) (kk : Byte) (s : State) : Host.Outcome State Fault Refusal :=
  .next (s.setReg x (s.reg x + kk)).advance

/-- `LD Vx, Vy` (R122). -/
def execLdReg (x y : Reg) (s : State) : Host.Outcome State Fault Refusal :=
  .next (s.setReg x (s.reg y)).advance

/-- `OR Vx, Vy`: no flag (R123; log 19). -/
def execOrReg (x y : Reg) (s : State) : Host.Outcome State Fault Refusal :=
  .next (s.setReg x (s.reg x ||| s.reg y)).advance

/-- `AND Vx, Vy`: no flag (R124; log 19). -/
def execAndReg (x y : Reg) (s : State) : Host.Outcome State Fault Refusal :=
  .next (s.setReg x (s.reg x &&& s.reg y)).advance

/-- `XOR Vx, Vy`: no flag (R125; log 19). -/
def execXorReg (x y : Reg) (s : State) : Host.Outcome State Fault Refusal :=
  .next (s.setReg x (s.reg x ^^^ s.reg y)).advance

/-- `ADD Vx, Vy`, flag = carry out (R126). -/
def execAddReg (x y : Reg) (s : State) : Host.Outcome State Fault Refusal :=
  .next (s.setRegThenFlag x (s.reg x + s.reg y) (carryOut (s.reg x) (s.reg y))).advance

/-- `SUB Vx, Vy`, flag = no borrow (R127). -/
def execSubReg (x y : Reg) (s : State) : Host.Outcome State Fault Refusal :=
  .next (s.setRegThenFlag x (s.reg x - s.reg y) (noBorrow (s.reg x) (s.reg y))).advance

/-- `SHR Vx`: `V[x]` in place, the `y` field ignored, flag = the bit dropped (R128; log 18). -/
def execShr (x _y : Reg) (s : State) : Host.Outcome State Fault Refusal :=
  .next (s.setRegThenFlag x (s.reg x >>> 1) (droppedRight (s.reg x))).advance

/-- `SUBN Vx, Vy`: `V[y] - V[x]`, flag = no borrow (R129). -/
def execSubnReg (x y : Reg) (s : State) : Host.Outcome State Fault Refusal :=
  .next (s.setRegThenFlag x (s.reg y - s.reg x) (noBorrow (s.reg y) (s.reg x))).advance

/-- `SHL Vx`: `V[x]` in place, the `y` field ignored, flag = the bit dropped (R130; log 18). -/
def execShl (x _y : Reg) (s : State) : Host.Outcome State Fault Refusal :=
  .next (s.setRegThenFlag x (s.reg x <<< 1) (droppedLeft (s.reg x))).advance

/-- `RND Vx, kk`: a free byte under the mask, one byte drawn (R133; log 2). -/
def execRnd (x : Reg) (kk : Byte) (s : State) : Host.Outcome State Fault Refusal :=
  .next (s.drawByte.2.setReg x (s.drawByte.1 &&& kk)).advance

end Sys2Proof.Machine
end

