-- ==== Sys2Proof/Machine/Operands.lean ====
section
/-! DEFINITION. The operand forms and addressing modes (30_encoding.md R62; 43_index_timer_key.md R151). -/

namespace Sys2Proof.Machine

/-- Absolute: `nnn` zero-extended to 16 bits (R62, R151 (a)). -/
def absolute (nnn : Addr12) : Word := nnn.setWidth _

/-- Absolute plus `V0`: the sum is not reduced to 12 bits (41_control_flow.md R101; R151 (b)). -/
def absolutePlusV0 (nnn : Addr12) (s : State) : Word := absolute nnn + ((s.reg V0).setWidth _ : Word)

/-- Indirect through `I`: the effective address `I + k`, an unbounded sum that is never wrapped
(20_memory.md R42; R151 (c)). -/
def indexed (s : State) (k : Nat) : Nat := s.i.toNat + k

/-- The address of the font glyph of a digit (43_index_timer_key.md R145). -/
def glyphAddress (digit : Byte) : Word :=
  BitVec.ofNat _ (config.fontBase + config.glyphStride * digit.toNat)

/-- The decimal digits of a byte: hundreds, tens, ones, one byte each (43_index_timer_key.md R146). -/
def bcdDigits (w : Byte) : List Byte :=
  [BitVec.ofNat 8 (w.toNat / 100), BitVec.ofNat 8 (w.toNat / 10 % 10), BitVec.ofNat 8 (w.toNat % 10)]

/-- `V[0]`, ..., `V[x]` (43_index_timer_key.md R147). -/
def regsUpTo (s : State) (x : Reg) : List Byte := s.v.toList.take (x.val + 1)

/-- The registers with `V[0]`..`V[x]` taken from the bytes at `I`..`I + x` (43_index_timer_key.md R148). -/
def regsLoadedUpTo (s : State) (x : Reg) : Vector Byte 16 :=
  Vector.ofFn fun r => if r ≤ x then s.byteAt (indexed s r.val) else s.reg r

/-- The `n` bytes of a sprite (45_display.md R166). -/
def spriteBytes (s : State) (n : Nat) : List Byte := s.mem.readBytes (indexed s 0) n

/-- The logical key a register value names; values above 15 name none (43_index_timer_key.md R149). -/
def namedKey (w : Byte) : Option Key :=
  if h : w.toNat < config.numKeys then some ⟨w.toNat, h⟩ else none

end Sys2Proof.Machine
end

