-- ==== Sys2Proof/Machine/ControlFlow.lean ====
section
/-! DEFINITION. Control flow (41_control_flow.md R100 to R109). -/

namespace Sys2Proof.Machine

/-- `JP nnn` (R100). -/
def execJp (nnn : Addr12) (s : State) : Host.Outcome State Fault Refusal :=
  .next (s.setPc (absolute nnn))

/-- `JP V0, nnn` (R101). -/
def execJpV0 (nnn : Addr12) (s : State) : Host.Outcome State Fault Refusal :=
  .next (s.setPc (absolutePlusV0 nnn s))

/-- `CALL nnn`: the entry pushed is the address after the `CALL` (R102; log 16). -/
def execCall (nnn : Addr12) (s : State) : Host.Outcome State Fault Refusal :=
  if s.stackFull then raise (.stackOverflow s.pc)
  else .next ((s.push (s.pcAhead 1)).setPc (absolute nnn))

/-- `RET`: nothing is added to the popped entry (R103). -/
def execRet (s : State) : Host.Outcome State Fault Refusal :=
  match s.stack with
  | [] => raise (.stackUnderflow s.pc)
  | w :: rest => .next ((s.setStack rest).setPc w)

/-- `SE Vx, kk` (R104). -/
def execSeImm (x : Reg) (kk : Byte) (s : State) : Host.Outcome State Fault Refusal :=
  .next (s.skipIf (s.reg x == kk))

/-- `SNE Vx, kk` (R105). -/
def execSneImm (x : Reg) (kk : Byte) (s : State) : Host.Outcome State Fault Refusal :=
  .next (s.skipIf (s.reg x != kk))

/-- `SE Vx, Vy` (R106). -/
def execSeReg (x y : Reg) (s : State) : Host.Outcome State Fault Refusal :=
  .next (s.skipIf (s.reg x == s.reg y))

/-- `SNE Vx, Vy` (R107). -/
def execSneReg (x y : Reg) (s : State) : Host.Outcome State Fault Refusal :=
  .next (s.skipIf (s.reg x != s.reg y))

end Sys2Proof.Machine
end

