-- ==== Sys2Proof/Machine/Display.lean ====
section
/-! DEFINITION. Display instructions (45_display.md R165 to R170). -/

namespace Sys2Proof.Machine

/-- `CLS` (R165). -/
def execCls (s : State) : Host.Outcome State Fault Refusal :=
  .next (s.setFb FrameBuffer.clear).advance

/-- The display column of sprite column `col`: each pixel wraps (R166 (c); log 21). -/
def spriteColumn (vx : Byte) (col : Nat) : Column :=
  ⟨(vx.toNat + col) % config.displayW, Nat.mod_lt _ (by decide)⟩

/-- The display row of sprite row `row`: each pixel wraps (R166 (c); log 21). -/
def spriteRow (vy : Byte) (row : Nat) : Row :=
  ⟨(vy.toNat + row) % config.displayH, Nat.mod_lt _ (by decide)⟩

/-- The sprite bit of a column: bit 7 is the leftmost (R166 (b); log 11). -/
def spriteBit (w : Byte) (col : Nat) : Bool := w.getLsbD (7 - col)

/-- One sprite bit of 1: the pixel is toggled, and turning a set pixel off is a collision (R166). -/
def plot (x : Column) (y : Row) (d : FrameBuffer × Bool) : FrameBuffer × Bool :=
  (FrameBuffer.setPixel d.1 x y (!FrameBuffer.pixel d.1 x y), d.2 || FrameBuffer.pixel d.1 x y)

/-- One row of a sprite, columns 0 to 7 in order (R166). -/
def drawRow (vx : Byte) (y : Row) (w : Byte) (d : FrameBuffer × Bool) : FrameBuffer × Bool :=
  (List.range 8).foldl (fun d col => if spriteBit w col then plot (spriteColumn vx col) y d else d) d

/-- The rows of a sprite from row number `row` on, in order (R166). -/
def drawRows (vx vy : Byte) : Nat → List Byte → FrameBuffer × Bool → FrameBuffer × Bool
  | _, [], d => d
  | row, w :: ws, d => drawRows vx vy (row + 1) ws (drawRow vx (spriteRow vy row) w d)

/-- The framebuffer after a sprite, and whether any set pixel was turned off (R166). -/
def drawSprite (vx vy : Byte) (ws : List Byte) (fb : FrameBuffer) : FrameBuffer × Bool :=
  drawRows vx vy 0 ws (fb, false)

/-- `DRW Vx, Vy, n`: the address check, the drawing, then `VF` once, always (R166). -/
def execDrw (x y : Reg) (n : Fin 16) (s : State) : Host.Outcome State Fault Refusal :=
  match firstFault (readFault .read) (indexed s 0) n.val with
  | some f => raise f
  | none =>
    let d := drawSprite (s.reg x) (s.reg y) (spriteBytes s n.val) s.fb
    .next ((s.setFb d.1).setReg VF (flagByte d.2)).advance

end Sys2Proof.Machine
end

