-- ==== Sys2Proof/Machine/IndexTimer.lean ====
section
/-! DEFINITION. Index register, timers, memory transfer and key tests (43_index_timer_key.md R140 to
R152). No timer advances by execution (R152). -/

namespace Sys2Proof.Machine

/-- `LD I, nnn` (R140). -/
def execLdI (nnn : Addr12) (s : State) : Host.Outcome State Fault Refusal :=
  .next (s.setI (absolute nnn)).advance

/-- `ADD I, Vx`: wraps at 16 bits, no flag (R141; log 19). -/
def execAddI (x : Reg) (s : State) : Host.Outcome State Fault Refusal :=
  .next (s.setI (s.i + ((s.reg x).setWidth _ : Word))).advance

/-- `LD Vx, DT` (R142). -/
def execLdVxDt (x : Reg) (s : State) : Host.Outcome State Fault Refusal :=
  .next (s.setReg x s.dt).advance

/-- `LD DT, Vx` (R143). -/
def execLdDtVx (x : Reg) (s : State) : Host.Outcome State Fault Refusal :=
  .next (s.setDt (s.reg x)).advance

/-- `LD ST, Vx` (R144). -/
def execLdStVx (x : Reg) (s : State) : Host.Outcome State Fault Refusal :=
  .next (s.setSt (s.reg x)).advance

/-- `LD F, Vx`: the whole value is tested, the high nibble is not masked off (R145). -/
def execLdF (x : Reg) (s : State) : Host.Outcome State Fault Refusal :=
  if 15 < (s.reg x).toNat then raise (.invalidFontDigit (s.reg x) s.pc)
  else .next (s.setI (glyphAddress (s.reg x))).advance

/-- `LD B, Vx`: every check before the first write (R146; log 15). -/
def execLdB (x : Reg) (s : State) : Host.Outcome State Fault Refusal :=
  match firstFault writeFault (indexed s 0) 3 with
  | some f => raise f
  | none => .next (s.storeBytes (indexed s 0) (bcdDigits (s.reg x))).advance

/-- `LD [I], Vx`: `x + 1` bytes, `I` unchanged (R147; logs 15, 33). -/
def execStRegs (x : Reg) (s : State) : Host.Outcome State Fault Refusal :=
  match firstFault writeFault (indexed s 0) (x.val + 1) with
  | some f => raise f
  | none => .next (s.storeBytes (indexed s 0) (regsUpTo s x)).advance

/-- `LD Vx, [I]`: `x + 1` registers, `I` unchanged (R148; logs 15, 33). -/
def execLdRegs (x : Reg) (s : State) : Host.Outcome State Fault Refusal :=
  match firstFault (readFault .read) (indexed s 0) (x.val + 1) with
  | some f => raise f
  | none => .next (s.setRegs (regsLoadedUpTo s x)).advance

/-- The key test both key skips share: the level of the key a register names, or the error
(R149, R150; log 20). -/
def skipOnKey (x : Reg) (down : Bool) (s : State) : Host.Outcome State Fault Refusal :=
  match namedKey (s.reg x) with
  | none => raise (.invalidKeyIndex (s.reg x) s.pc)
  | some k => .next (s.skipIf (s.key k == down))

/-- `SKP Vx` (R149). -/
def execSkp (x : Reg) (s : State) : Host.Outcome State Fault Refusal := skipOnKey x true s

/-- `SKNP Vx` (R150). -/
def execSknp (x : Reg) (s : State) : Host.Outcome State Fault Refusal := skipOnKey x false s

end Sys2Proof.Machine
end

