-- ==== Sys2Proof/Machine/KeyWait.lean ====
section
/-! DEFINITION. The blocking key wait (44_keywait.md R160 to R162). -/

namespace Sys2Proof.Machine

/-- `LD Vx, K`: the latch takes the index `x` and `pc` advances at once; `V[x]` is written later, by the
`KEY_DOWN` that ends the wait, and `K` is not read (R160). -/
def execLdVxK (x : Reg) (s : State) : Host.Outcome State Fault Refusal :=
  .next (s.setWait (some x)).advance

end Sys2Proof.Machine
end

