-- ==== Sys2Proof/Machine/System.lean ====
section
/-! DEFINITION. The system class (46_sys.md R175, R176). -/

namespace Sys2Proof.Machine

/-- `SYS nnn`: a no-op whose operand is ignored (R175; 30_encoding.md R67). -/
def execSys (_nnn : Addr12) (s : State) : Host.Outcome State Fault Refusal :=
  .next s.advance

end Sys2Proof.Machine
end

