-- ==== Sys2Proof/Machine/Commands.lean ====
section
/-! DEFINITION. The commands of the host and of the core (00_scope.md R5): `EXECUTE`, `STEP`
(40_dispatch.md R81 to R83) and `RESET`, `LOAD`, `KEY_DOWN`, `KEY_UP`, `TICK` (60_exceptions.md R200 to
R203; 70_reset_and_hazards.md R220). -/

namespace Sys2Proof.Machine

/-- `EXECUTE(op)`: the halted gate first of all, then decode, then the instruction's rule (R81, R82).
The word need not be the one at `pc`. -/
def executeWord (op : Word) (s : State) : Host.Outcome State Fault Refusal :=
  match s.wait with
  | some _ => .next s
  | none =>
    match decode op with
    | none => raise (.unimplementedOpcode op s.pc)
    | some i => exec i s

/-- `STEP`: nothing while waiting, not even the fetch (R83; log 24); otherwise fetch and execute. -/
def stepCommand (s : State) : Host.Outcome State Fault Refusal :=
  match s.wait with
  | some _ => .next s
  | none =>
    match fetch s with
    | .error f => raise f
    | .ok op => executeWord op s

/-- `RESET`: every piece of the block's state at its reset value (R220, R221). The model's own fields
are not the block's and stay: the parameter and the host's side (log 30). -/
def resetCommand (s : State) : State :=
  { State.reset with
    stackDepth := s.stackDepth, pending := s.pending, randIn := s.randIn, draws := s.draws }

/-- The result of `LOAD` (R203). -/
inductive LoadResult where
  | ok (len : Nat)
  | romTooLarge
  deriving DecidableEq, Repr

/-- `LOAD(bytes)`: the result, and the state with the bytes copied to `PROG_BASE` up; a sequence that
does not fit writes nothing (R203). It is the loader's write, not an instruction's. -/
def loadCommand (bytes : List Byte) (s : State) : LoadResult × State :=
  if config.memSize - config.progBase < bytes.length then (.romTooLarge, s)
  else (.ok bytes.length, s.storeBytes config.progBase bytes)

/-- `KEY_DOWN(k)`: the key's bit, and the end of a wait (R200). -/
def keyDownCommand (k : Key) (s : State) : State :=
  match s.wait with
  | some r => ((s.setKey k true).setReg r (BitVec.ofNat 8 k.val)).setWait none
  | none => s.setKey k true

/-- `KEY_UP(k)`: the key's bit and nothing else (R201). -/
def keyUpCommand (k : Key) (s : State) : State := s.setKey k false

/-- `TICK`: both timers, each saturating at zero (R202). -/
def tickCommand (s : State) : State := (s.setDt (ticked s.dt)).setSt (ticked s.st)

/-- One command, whole (R8). `LOAD` answers its result to the host and the machine goes on (log 5). -/
def perform (c : Command) (s : State) : Host.Outcome State Fault Refusal :=
  match c with
  | .reset => .next (resetCommand s)
  | .load bytes => .next (loadCommand bytes s).2
  | .execute op => executeWord op s
  | .step => stepCommand s
  | .keyDown k => .next (keyDownCommand k s)
  | .keyUp k => .next (keyUpCommand k s)
  | .tick => .next (tickCommand s)

/-- The next command of the total order the host makes (R8): the first that is lined up, and `STEP` when
none is (log 1). -/
def performNext (s : State) : Host.Outcome State Fault Refusal :=
  match s.pending with
  | [] => stepCommand s
  | c :: rest => perform c { s with pending := rest }

/-- Where the next fetch can find an instruction: `pc`, and `PROG_BASE` when `pc` has no two bytes of
memory. -/
def fetchablePc (s : State) : Word :=
  if s.pc.toNat + 1 < config.memSize then s.pc else BitVec.ofNat _ config.progBase

end Sys2Proof.Machine
end

