-- ==== Sys2Proof/Machine/Step.lean ====
section
/-! DEFINITION. One step of the machine: the next whole command (00_scope.md R8), which is `STEP` unless
the host has lined another one up (log 1). -/

namespace Sys2Proof.Machine

/-- The step function. -/
def step (s : State) : Host.Outcome State Fault Refusal := performNext s

/-- The state with an instruction's word placed where the next step fetches, so that the next step runs
it: the two bytes in memory, no command lined up before the fetch, and no wait. It stands for `LOAD`
(log 6). -/
def State.withFetchWord (s : State) (nbits w : Nat) : State :=
  { s with
    pc := fetchablePc s
    mem := s.mem.writeBytes (fetchablePc s).toNat
      [highByte (tableWord nbits w), lowByte (tableWord nbits w)]
    wait := none
    pending := [] }

end Sys2Proof.Machine
end

