-- ==== Sys2Proof/Machine/Observers.lean ====
section
/-! DEFINITION. The observers, which change nothing (00_scope.md R7; 10_state.md R28). `FETCH` is
`fetch` of Machine/Ops.lean. -/

namespace Sys2Proof.Machine

/-- `display()`: 2048 entries, row-major, one entry a pixel, value 0 or 1 (R28; log 31). -/
def display (s : State) : List Byte :=
  (s.fb.toList.map fun row => row.toList.map fun b => if b then (1 : Byte) else 0).flatten

/-- The snapshot accessors together (R7): the stack is shown oldest entry first (R17). -/
structure Snapshot where
  v : List Byte
  i : Word
  pc : Word
  stack : List Word
  dt : Byte
  st : Byte
  keys : List Bool
  wait : Option Reg
  mem : List Byte
  deriving DecidableEq, Repr

/-- The state as the host sees it between two commands (R7). -/
def snapshot (s : State) : Snapshot where
  v := s.v.toList
  i := s.i
  pc := s.pc
  stack := s.stack.reverse
  dt := s.dt
  st := s.st
  keys := s.keys.toList
  wait := s.wait
  mem := s.mem.readBytes 0 config.memSize

end Sys2Proof.Machine
end

