-- ==== Sys2Proof/Safety.lean ====
section
/-! DEFINITION. What counts as a safe run, and the invariant of reachable states (10_state.md R29). -/

namespace Sys2Proof.Machine

/-- Every listed byte is one that a store or `LOAD` may change: above the font, below the end of memory
(20_memory.md R41, R46). -/
abbrev Memory.inRange (m : Memory) : Prop := ∀ c ∈ m, config.fontSize ≤ c.1 ∧ c.1 < config.memSize

/-- The stack holds no more entries than `STACK_DEPTH` when that is a number (10_state.md R17). -/
abbrev State.stackBounded (s : State) : Prop := ∀ n, s.stackDepth = some n → s.stack.length ≤ n

/-- What holds in every reachable state: memory is in canonical form, only bytes that may change are
listed (so the font reads as `FONT`, R29 (d)), and the stack keeps its bound. -/
structure State.Inv (s : State) : Prop where
  memWf : s.mem.wf
  memInRange : s.mem.inRange
  stackBounded : s.stackBounded

/-- The first `n` steps from `s` answer next states: no error occurs (60_exceptions.md R188). -/
def SafeFor (n : Nat) (s : State) : Prop := ∃ t, Host.Core.run Sys2Proof.core n s = .next t

/-- No run from `s` ever meets an error. -/
def Safe (s : State) : Prop := ∀ n, SafeFor n s

end Sys2Proof.Machine
end

