-- ==== Sys2Proof/Certificates/Slice0/Obligations.lean ====
section
/-! DEFINITION. The statements for the provers, and the vocabulary they are written in. A statement that
rests on a choice the spec marks as its own, or on one of the model's log entries, says so. -/

namespace Sys2Proof.Claims

open Sys2Proof.Machine

/-! ### Vocabulary -/

/-- The parts of the state: those of 10_state.md R25, then the model's own fields. -/
inductive Part where
  | regs | index | pc | stack | dt | st | keys | wait | fb | mem | param | pending | rand
  deriving DecidableEq, Repr

/-- One part is the same in two states; memory is compared through the read of one byte at every
address, registers, keys and pixels one by one. -/
def Same (s t : State) : Part → Prop
  | .regs => ∀ r, t.reg r = s.reg r
  | .index => t.i = s.i
  | .pc => t.pc = s.pc
  | .stack => t.stack = s.stack
  | .dt => t.dt = s.dt
  | .st => t.st = s.st
  | .keys => ∀ k, t.key k = s.key k
  | .wait => t.wait = s.wait
  | .fb => ∀ x y, FrameBuffer.pixel t.fb x y = FrameBuffer.pixel s.fb x y
  | .mem => ∀ a, t.byteAt a = s.byteAt a
  | .param => t.stackDepth = s.stackDepth
  | .pending => t.pending = s.pending
  | .rand => t.randIn = s.randIn ∧ t.draws = s.draws

/-- THE FRAME: every part not listed is the same after as before. -/
def OnlyChanges (parts : List Part) (s t : State) : Prop := ∀ p, p ∉ parts → Same s t p

/-- Every register not listed is the same after as before. -/
def OtherRegsKept (rs : List Reg) (s t : State) : Prop := ∀ r, r ∉ rs → t.reg r = s.reg r

/-- An instruction that changes `pc` and nothing else. -/
def OnlyMovesPc (i : Instr) (s : State) (pc : Word) : Prop :=
  ∃ t, exec i s = .next t ∧ t.pc = pc ∧ OnlyChanges [.pc] s t

/-- An instruction that writes `w` to `V[x]`, no other register, no flag, and moves `pc` on by 2. -/
def WritesOneReg (i : Instr) (s : State) (x : Reg) (w : Byte) : Prop :=
  ∃ t, exec i s = .next t ∧ t.reg x = w ∧ OtherRegsKept [x] s t ∧ t.pc = s.pc + 2 ∧
    OnlyChanges [.regs, .pc] s t

/-- An instruction that writes the number `w` to `V[x]` and then the flag to `VF` (so that for `x` = 15
the flag stays and the result is lost), no other register, and moves `pc` on by 2. -/
def WritesRegThenFlag (i : Instr) (s : State) (x : Reg) (w : Nat) (flag : Prop) : Prop :=
  ∃ t, exec i s = .next t ∧ (x ≠ VF → (t.reg x).toNat = w) ∧
    (flag → t.reg VF = 1) ∧ (¬flag → t.reg VF = 0) ∧
    OtherRegsKept [x, VF] s t ∧ t.pc = s.pc + 2 ∧ OnlyChanges [.regs, .pc] s t

/-- The logical key that a register value names is at the given level. -/
def NamedKeyIs (s : State) (w : Byte) (down : Bool) : Prop :=
  ∃ k : Key, k.val = w.toNat ∧ s.key k = down

/-- The sprite of `DRW Vx, Vy, n` has a 1 bit at the display pixel: the formula of 45_display.md R166,
each pixel wrapping on both axes, bit 7 leftmost. -/
def SpriteAt (s : State) (x y : Reg) (n : Nat) (px : Column) (py : Row) : Prop :=
  ∃ row col, row < n ∧ col < 8 ∧
    (s.byteAt (s.i.toNat + row)).getLsbD (7 - col) = true ∧
    px.val = ((s.reg x).toNat + col) % 64 ∧ py.val = ((s.reg y).toNat + row) % 32

/-- The state with another sequence on `RAND_IN`. -/
def withRand (bytes : List Byte) (count : Nat) (s : State) : State :=
  { s with randIn := bytes, draws := count }

/-- The state with other keys down. -/
def withKeys (keys : Vector Bool 16) (s : State) : State := { s with keys := keys }

/-- A change of state carried through an outcome. -/
def mapNext (f : State → State) :
    Host.Outcome State Fault Refusal → Host.Outcome State Fault Refusal
  | .next t => .next (f t)
  | .fault e => .fault e
  | .refused r => .refused r

/-- The new `pc` of every instruction, 40_dispatch.md R85. -/
def pcAfter (s : State) : Instr → Word
  | .jp nnn | .call nnn => BitVec.ofNat 16 nnn.toNat
  | .jpV0 nnn => BitVec.ofNat 16 (nnn.toNat + (s.reg 0).toNat)
  | .ret => s.stack.headD 0
  | .seImm x kk => if s.reg x = kk then s.pc + 4 else s.pc + 2
  | .sneImm x kk => if s.reg x = kk then s.pc + 2 else s.pc + 4
  | .seReg x y => if s.reg x = s.reg y then s.pc + 4 else s.pc + 2
  | .sneReg x y => if s.reg x = s.reg y then s.pc + 2 else s.pc + 4
  | .skp x =>
    if h : (s.reg x).toNat < 16 then (if s.key ⟨_, h⟩ = true then s.pc + 4 else s.pc + 2) else s.pc
  | .sknp x =>
    if h : (s.reg x).toNat < 16 then (if s.key ⟨_, h⟩ = true then s.pc + 2 else s.pc + 4) else s.pc
  | _ => s.pc + 2

/-- The registers an instruction writes: its `V[x]`, `V[0]..V[x]` for the bulk load, and `VF` for the six
flag writers (10_state.md R26, R27). -/
def destRegs : Instr → List Reg
  | .ldImm x _ | .addImm x _ | .ldReg x _ | .orReg x _ | .andReg x _ | .xorReg x _ => [x]
  | .rnd x _ | .ldVxDt x => [x]
  | .addReg x _ | .subReg x _ | .shr x _ | .subnReg x _ | .shl x _ => [x, VF]
  | .drw _ _ _ => [VF]
  | .ldRegs x => (List.finRange 16).filter fun r => r ≤ x
  | _ => []

/-- The parts an instruction writes (10_state.md R26), `pc` among them always. -/
def writtenParts : Instr → List Part
  | .cls => [.pc, .fb]
  | .ret | .call _ => [.pc, .stack]
  | .ldImm _ _ | .addImm _ _ | .ldReg _ _ | .orReg _ _ | .andReg _ _ | .xorReg _ _ => [.pc, .regs]
  | .addReg _ _ | .subReg _ _ | .shr _ _ | .subnReg _ _ | .shl _ _ => [.pc, .regs]
  | .ldVxDt _ | .ldRegs _ => [.pc, .regs]
  | .rnd _ _ => [.pc, .regs, .rand]
  | .drw _ _ _ => [.pc, .regs, .fb]
  | .ldI _ | .addI _ | .ldF _ => [.pc, .index]
  | .ldVxK _ => [.pc, .wait]
  | .ldDtVx _ => [.pc, .dt]
  | .ldStVx _ => [.pc, .st]
  | .ldB _ | .stRegs _ => [.pc, .mem]
  | .sys _ | .jp _ | .jpV0 _ | .seImm _ _ | .sneImm _ _ | .seReg _ _ | .sneReg _ _ => [.pc]
  | .skp _ | .sknp _ => [.pc]

/-- The six instructions that write `VF` as a flag (10_state.md R27). -/
def writesFlag : Instr → Bool
  | .addReg _ _ | .subReg _ _ | .subnReg _ _ | .shr _ _ | .shl _ _ | .drw _ _ _ => true
  | _ => false

/-- The condition under which an instruction raises a cause, with its info (60_exceptions.md R180). -/
def MayRaise (i : Instr) (s : State) : Fault → Prop
  | .unimplementedOpcode _ _ => False
  | .stackUnderflow pc => i = .ret ∧ s.stack = [] ∧ pc = s.pc
  | .invalidFontDigit d pc => ∃ x, i = .ldF x ∧ d = s.reg x ∧ 15 < d.toNat ∧ pc = s.pc
  | .addressOutOfRange _ .fetch => False
  | .addressOutOfRange a .read =>
    ((∃ x y n, i = .drw x y n ∧ 0 < n.val ∧ 4095 < s.i.toNat + n.val) ∨
      ∃ x, i = .ldRegs x ∧ 4095 ≤ s.i.toNat + x.val) ∧ a = max s.i.toNat 4095
  | .addressOutOfRange a .write =>
    ((∃ x, i = .ldB x ∧ 4095 ≤ s.i.toNat + 2) ∨
      ∃ x, i = .stRegs x ∧ 4095 ≤ s.i.toNat + x.val) ∧ a = max s.i.toNat 4095
  | .writeProtected a => ((∃ x, i = .ldB x) ∨ ∃ x, i = .stRegs x) ∧ a < 80 ∧ a = s.i.toNat
  | .invalidKeyIndex w pc =>
    ((∃ x, i = .skp x ∧ w = s.reg x) ∨ ∃ x, i = .sknp x ∧ w = s.reg x) ∧ 15 < w.toNat ∧ pc = s.pc
  | .stackOverflow pc =>
    (∃ nnn, i = .call nnn) ∧ s.stackDepth = some s.stack.length ∧ pc = s.pc

/-- `pc` and every return address are even (10_state.md R29 (e)). -/
def EvenPc (s : State) : Prop := s.pc.toNat % 2 = 0 ∧ ∀ w ∈ s.stack, w.toNat % 2 = 0

/-- A transfer goes to an even address (10_state.md R29 (e)). -/
def EvenTarget (s : State) : Instr → Prop
  | .jp nnn | .call nnn => nnn.toNat % 2 = 0
  | .jpV0 nnn => (nnn.toNat + (s.reg 0).toNat) % 2 = 0
  | _ => True

/-- `pc` and every return address are at most 0x10FE, the largest transfer target (10_state.md R16). -/
def SmallPc (s : State) : Prop := s.pc.toNat ≤ 0x10FE ∧ ∀ w ∈ s.stack, w.toNat ≤ 0x10FE

/-- A command that cannot end a wait. -/
def KeepsWaiting : Command → Prop
  | .keyDown _ | .reset => False
  | _ => True

end Sys2Proof.Claims

open Sys2Proof Sys2Proof.Machine Sys2Proof.Claims

/-! ### Encoding -/

/-- 30_encoding.md R70: the four words with source evidence, bit by bit with their fields, and the padding
word. A sanity statement. -/
def Obligations.SourceWordsDecode : Prop :=
  (fieldA 0b0110000000000101 = 6 ∧ fieldX 0b0110000000000101 = 0 ∧ fieldKK 0b0110000000000101 = 0x05 ∧
    decode 0b0110000000000101 = some (.ldImm 0 0x05)) ∧
  (fieldA 0b0111000000001010 = 7 ∧ fieldX 0b0111000000001010 = 0 ∧ fieldKK 0b0111000000001010 = 0x0A ∧
    decode 0b0111000000001010 = some (.addImm 0 0x0A)) ∧
  (fieldA 0b0010001000000110 = 2 ∧ fieldNNN 0b0010001000000110 = 0x206 ∧
    decode 0b0010001000000110 = some (.call 0x206)) ∧
  decode 0b0000000011101110 = some .ret ∧ decode 0x0000 = some (.sys 0)

/-- Every well-formed instruction is decoded from its own opcode, every operand at every value (log 8: 31
of the 35 patterns are the spec's general knowledge). -/
def Obligations.DecodeOfEncodeIsTheInstruction : Prop :=
  ∀ i : Instr, i.wf = true → decode (encode i) = some i

/-- Every legal word is the opcode of the instruction it decodes to, which is well-formed: no bit of a
word is dropped, the ignored `y` of the shifts included (log 27). -/
def Obligations.EncodeOfDecodeIsTheWord : Prop :=
  ∀ (op : Word) (i : Instr), decode op = some i → i.wf = true ∧ encode i = op

/-- 30_encoding.md R64 over the map of R63 (log 8): the decoded instruction's row covers the word, and a
word that a row covers decodes to that row, the exact rows `CLS` and `RET` winning over `SYS`. -/
def Obligations.DecodeSelectsTheCoveringRow : Prop :=
  (∀ op i, decode op = some i → i.row.covers op = true) ∧
  ∀ (i : Instr) (op : Word), i.row.covers op = true →
    (i.row = (Instr.sys 0).row → op ≠ 0x00E0 ∧ op ≠ 0x00EE) →
    ∃ j, decode op = some j ∧ j.row = i.row

/-- 30_encoding.md R66 with the strict matching of decision D18 (log 9): exactly these words are
illegal. -/
def Obligations.IllegalWordsAreExactlyTheListed : Prop :=
  ∀ op : Word, decode op = none ↔
    (op.toNat / 4096 = 5 ∧ op.toNat % 16 ≠ 0) ∨
    (op.toNat / 4096 = 8 ∧ op.toNat % 16 ∈ [0x8, 0x9, 0xA, 0xB, 0xC, 0xD, 0xF]) ∨
    (op.toNat / 4096 = 9 ∧ op.toNat % 16 ≠ 0) ∨
    (op.toNat / 4096 = 0xE ∧ op.toNat % 256 ∉ [0x9E, 0xA1]) ∨
    (op.toNat / 4096 = 0xF ∧
      op.toNat % 256 ∉ [0x07, 0x0A, 0x15, 0x18, 0x1E, 0x29, 0x33, 0x55, 0x65])

/-! ### One step -/

/-- 40_dispatch.md R82, R83; 20_memory.md R44: a running block runs the instruction that the big-endian
word at `pc` stands for, when the host issues `STEP`: because no command is lined up, or because that one
is (log 1). Nothing else is added around `exec`. -/
def Obligations.StepRunsTheDecodedInstruction : Prop :=
  ∀ (s : State) (i : Instr), s.wait = none → s.pc.toNat + 1 < 4095 →
    decode (BitVec.ofNat 16
      ((s.byteAt s.pc.toNat).toNat * 256 + (s.byteAt (s.pc.toNat + 1)).toNat)) = some i →
    (s.pending = [] → step s = exec i s) ∧
    ∀ rest, s.pending = .step :: rest → step s = exec i { s with pending := rest }

/-- 40_dispatch.md R87 in one statement: the gate, then the fetch range (decision D6, log 13), then
decode, then the instruction. The order is decision D35 (log 35), the gate before the fetch decision D28
(log 24); that no command lined up means `STEP` is the model's choice (log 1). -/
def Obligations.StepChecksGateThenFetchThenDecode : Prop :=
  ∀ s : State, s.pending = [] →
    (∀ r, s.wait = some r → step s = .next s) ∧
    (s.wait = none →
      (4095 ≤ s.pc.toNat → step s = .fault (.addressOutOfRange s.pc.toNat .fetch)) ∧
      (s.pc.toNat = 4094 → step s = .fault (.addressOutOfRange 4095 .fetch)) ∧
      (s.pc.toNat < 4094 → ∀ op : Word,
        op.toNat = (s.byteAt s.pc.toNat).toNat * 256 + (s.byteAt (s.pc.toNat + 1)).toNat →
        (decode op = none → step s = .fault (.unimplementedOpcode op s.pc)) ∧
        ∀ i, decode op = some i → step s = exec i s))

/-- 40_dispatch.md R81: a waiting block answers `EXECUTE` of any word, and `STEP`, with `Ok` and no change,
and so does every step with no other command lined up. That `STEP` does not fetch there is decision D28
(log 24); that no command lined up means `STEP` is the model's choice (log 1). -/
def Obligations.WaitingBlockChangesNothing : Prop :=
  ∀ (s : State) (r : Reg), s.wait = some r →
    (∀ op, perform (.execute op) s = .next s) ∧ perform .step s = .next s ∧
    (s.pending = [] → step s = .next s)

/-- 40_dispatch.md R82: `EXECUTE(op)` runs the given word, at the current `pc`, whatever word stands
there; an illegal word raises. -/
def Obligations.ExecuteRunsTheGivenWord : Prop :=
  ∀ (s : State) (op : Word),
    (∀ r, s.wait = some r → perform (.execute op) s = .next s) ∧
    (s.wait = none →
      (decode op = none → perform (.execute op) s = .fault (.unimplementedOpcode op s.pc)) ∧
      ∀ i, decode op = some i → perform (.execute op) s = exec i s)

/-- 00_scope.md R8: one step is one whole command, the next of the host's order, and `STEP` when none is
lined up (the model's form of that order, log 1). -/
def Obligations.StepPerformsTheNextCommand : Prop :=
  ∀ s : State, (s.pending = [] → step s = perform .step s) ∧
    ∀ c rest, s.pending = c :: rest → step s = perform c { s with pending := rest }

/-! ### Rules about every instruction -/

/-- 40_dispatch.md R85: the table of the new `pc`, with what `CALL` pushes; a waiting block keeps `pc`.
An `Err` leaves no state in the model, so the clause about it has nothing to say here. -/
def Obligations.PcAfterEveryInstruction : Prop :=
  (∀ (i : Instr) (s t : State), exec i s = .next t → t.pc = pcAfter s i ∧
    ∀ nnn, i = .call nnn → t.stack = (s.pc + 2) :: s.stack) ∧
  ∀ (op : Word) (s t : State) (r : Reg), s.wait = some r → executeWord op s = .next t → t.pc = s.pc

/-- 10_state.md R26, the columns of writes: the frame of every instruction at once. That the bulk transfers
keep `I` is derived in the spec (log 33); that the logic instructions and `ADD I, Vx` write no flag is derived
there, that `ADD Vx, kk` writes none its decision D15 (log 19). -/
def Obligations.EveryInstructionWritesOnlyItsParts : Prop :=
  ∀ (i : Instr) (s t : State), exec i s = .next t →
    OnlyChanges (writtenParts i) s t ∧ OtherRegsKept (destRegs i) s t

/-- 10_state.md R14, R27: a flag writer leaves 0 or 1 in `VF`, and any other instruction leaves `VF`
alone unless it is its destination register. -/
def Obligations.OnlyFlagWritersTouchVF : Prop :=
  ∀ (i : Instr) (s t : State), exec i s = .next t →
    (writesFlag i = true → t.reg VF = 0 ∨ t.reg VF = 1) ∧
    (writesFlag i = false → VF ∉ destRegs i → t.reg VF = s.reg VF)

/-- 60_exceptions.md R180: an instruction raises only its own causes, each under its condition and with
its info, and never refuses (logs 3, 13, 14, 20 for the causes the spec adds). -/
def Obligations.InstructionsRaiseOnlyTheirCauses : Prop :=
  ∀ (i : Instr) (s : State),
    (∀ f, exec i s = .fault f → MayRaise i s f) ∧ ∀ r, exec i s ≠ .refused r

/-- 43_index_timer_key.md R152: no instruction moves a timer but the two that load it, with the value
they load; `TICK` is the command that decrements. -/
def Obligations.NoInstructionAdvancesATimer : Prop :=
  (∀ (i : Instr) (s t : State), exec i s = .next t →
    (t.dt = s.dt ∨ ∃ x, i = .ldDtVx x ∧ t.dt = s.reg x) ∧
    (t.st = s.st ∨ ∃ x, i = .ldStVx x ∧ t.st = s.reg x)) ∧
  ∀ (s t : State) (c : Command), perform c s = .next t →
    (t.dt.toNat < s.dt.toNat →
      c = .tick ∨ c = .reset ∨ (∃ op x, c = .execute op ∧ decode op = some (.ldDtVx x)) ∨
        (c = .step ∧ ∃ op x, fetch s = .ok op ∧ decode op = some (.ldDtVx x))) ∧
    (t.st.toNat < s.st.toNat →
      c = .tick ∨ c = .reset ∨ (∃ op x, c = .execute op ∧ decode op = some (.ldStVx x)) ∨
        (c = .step ∧ ∃ op x, fetch s = .ok op ∧ decode op = some (.ldStVx x)))

/-- 00_scope.md R6: `RND` reads the byte on `RAND_IN`, and nothing else reads it. Noninterference: with
another sequence presented, every other instruction, and every command that runs none, does the same. That
the bytes to come are a sequence in the state is the model's choice (log 2). -/
def Obligations.OnlyRndReadsRandIn : Prop :=
  (∀ (x : Reg) (kk w : Byte) (rest : List Byte) (s : State), s.randIn = w :: rest →
    ∃ t, exec (.rnd x kk) s = .next t ∧ t.reg x = w &&& kk) ∧
  (∀ (i : Instr) (s : State) (bytes : List Byte) (count : Nat), (∀ x kk, i ≠ .rnd x kk) →
    exec i (withRand bytes count s) = mapNext (withRand bytes count) (exec i s)) ∧
  ∀ (c : Command) (s : State) (bytes : List Byte) (count : Nat), c ≠ .step → (∀ op, c ≠ .execute op) →
    perform c (withRand bytes count s) = mapNext (withRand bytes count) (perform c s)

/-- 10_state.md R19, R20: no instruction reads `ST`, and only `SKP` and `SKNP` read the key vector, `LD Vx,
K` among the rest. Noninterference: another sound timer, or other keys down, change nothing but
themselves (and not even the sound timer after `LD ST, Vx`). -/
def Obligations.SoundTimerAndKeysAreHiddenFromTheRest : Prop :=
  ∀ (i : Instr) (s : State),
    (∀ w, ((∀ x, i ≠ .ldStVx x) → exec i (s.setSt w) = mapNext (fun t => t.setSt w) (exec i s)) ∧
      ∀ x, i = .ldStVx x → exec i (s.setSt w) = exec i s) ∧
    ∀ keys, (∀ x, i ≠ .skp x) → (∀ x, i ≠ .sknp x) →
      exec i (withKeys keys s) = mapNext (withKeys keys) (exec i s)

/-! ### Invariants -/

/-- The invariant holds at reset. -/
def Obligations.InvHoldsAtReset : Prop := State.reset.Inv

/-- Every step of every state that meets the invariant keeps it: memory in canonical form, no byte of the
font ever listed, the stack within `STACK_DEPTH`. -/
def Obligations.StepKeepsInv : Prop :=
  ∀ s t : State, s.Inv → step s = .next t → t.Inv

/-- 10_state.md R29 (d): where the invariant holds, memory 0 to 79 is `FONT`, and so it is after any
step. -/
def Obligations.FontIsNeverChanged : Prop :=
  ∀ s : State, s.Inv → ∀ a, a < 80 →
    s.byteAt a = config.font.getD a 0 ∧ ∀ t, step s = .next t → t.byteAt a = s.byteAt a

/-- 10_state.md R16 (derived there): from where an instruction can be fetched, `pc` and the return
addresses stay at or below 0x10FE, so that no update wraps. -/
def Obligations.PcNeverPassesTheLargestTarget : Prop :=
  ∀ (i : Instr) (s t : State), SmallPc s → s.pc.toNat + 1 < 4095 → exec i s = .next t → SmallPc t

/-- 10_state.md R29 (e) (derived there): transfers to even addresses keep `pc` and the return addresses
even. -/
def Obligations.EvenTargetsKeepPcEven : Prop :=
  ∀ (i : Instr) (s t : State), EvenPc s → EvenTarget s i → exec i s = .next t → EvenPc t

/-! ### Control flow -/

/-- 41_control_flow.md R100: `JP nnn`. Nothing is checked at the jump; a target at or above `MEM_SIZE` - 1
makes the next `STEP` raise (decision D6, log 13). That no command lined up means `STEP` is the model's
choice (log 1). -/
def Obligations.JpSetsPc : Prop :=
  ∀ (nnn : Addr12) (s : State), ∃ t, exec (.jp nnn) s = .next t ∧ t.pc.toNat = nnn.toNat ∧
    OnlyChanges [.pc] s t ∧
    (s.wait = none → s.pending = [] → 4094 ≤ nnn.toNat →
      step t = .fault (.addressOutOfRange 4095 .fetch))

/-- 41_control_flow.md R101: `JP V0, nnn`. Always register 0, and the sum is not reduced to 12 bits; a
target past the last word makes the next `STEP` raise (decision D6, log 13). That no command lined up
means `STEP` is the model's choice (log 1). -/
def Obligations.JpV0AddsRegisterZero : Prop :=
  ∀ (nnn : Addr12) (s : State), ∃ t, exec (.jpV0 nnn) s = .next t ∧
    t.pc.toNat = nnn.toNat + (s.reg 0).toNat ∧ OnlyChanges [.pc] s t ∧
    (s.wait = none → s.pending = [] → 4094 ≤ nnn.toNat + (s.reg 0).toNat →
      step t = .fault (.addressOutOfRange (max (nnn.toNat + (s.reg 0).toNat) 4095) .fetch))

/-- 41_control_flow.md R102 with decision D11 (log 16): `CALL` pushes the address after itself, or, on a
machine built with a bounded stack that is full, raises (decision D12, log 3). -/
def Obligations.CallPushesTheNextAddress : Prop :=
  ∀ (nnn : Addr12) (s : State),
    (s.stackDepth ≠ some s.stack.length → ∃ t, exec (.call nnn) s = .next t ∧
      t.stack = (s.pc + 2) :: s.stack ∧ t.pc.toNat = nnn.toNat ∧ OnlyChanges [.stack, .pc] s t) ∧
    (s.stackDepth = some s.stack.length → exec (.call nnn) s = .fault (.stackOverflow s.pc))

/-- 41_control_flow.md R103: `RET` takes the popped entry as it is (decision D11, log 16), and raises on an
empty stack. -/
def Obligations.RetPopsTheReturnAddress : Prop :=
  ∀ s : State,
    (∀ w rest, s.stack = w :: rest → ∃ t, exec .ret s = .next t ∧ t.pc = w ∧ t.stack = rest ∧
      OnlyChanges [.stack, .pc] s t) ∧
    (s.stack = [] → exec .ret s = .fault (.stackUnderflow s.pc))

/-- The source's round trip (95_test_vectors.md S5): `CALL` and at once `RET` lead to the address after
the `CALL`, with the stack as it was and nothing else changed. -/
def Obligations.CallThenRetComesBack : Prop :=
  ∀ (nnn : Addr12) (s t : State), exec (.call nnn) s = .next t →
    ∃ u, exec .ret t = .next u ∧ u.pc = s.pc + 2 ∧ u.stack = s.stack ∧ OnlyChanges [.pc] s u

/-- 41_control_flow.md R104, R105: the skips on an immediate. -/
def Obligations.ImmediateSkipsCompareAndSkip : Prop :=
  ∀ (x : Reg) (kk : Byte) (s : State),
    (s.reg x = kk → OnlyMovesPc (.seImm x kk) s (s.pc + 4) ∧ OnlyMovesPc (.sneImm x kk) s (s.pc + 2)) ∧
    (s.reg x ≠ kk → OnlyMovesPc (.seImm x kk) s (s.pc + 2) ∧ OnlyMovesPc (.sneImm x kk) s (s.pc + 4))

/-- 41_control_flow.md R106, R107: the skips on two registers. -/
def Obligations.RegisterSkipsCompareAndSkip : Prop :=
  ∀ (x y : Reg) (s : State),
    (s.reg x = s.reg y →
      OnlyMovesPc (.seReg x y) s (s.pc + 4) ∧ OnlyMovesPc (.sneReg x y) s (s.pc + 2)) ∧
    (s.reg x ≠ s.reg y →
      OnlyMovesPc (.seReg x y) s (s.pc + 2) ∧ OnlyMovesPc (.sneReg x y) s (s.pc + 4))

/-- 46_sys.md R175: `SYS` is a no-op whatever its operand. -/
def Obligations.SysOnlyAdvancesPc : Prop :=
  ∀ (nnn : Addr12) (s : State), OnlyMovesPc (.sys nnn) s (s.pc + 2)

/-! ### Register load, arithmetic, logic, random -/

/-- 42_alu.md R120, R122: the two plain loads. -/
def Obligations.LoadsWriteExactlyTheValue : Prop :=
  ∀ (x y : Reg) (kk : Byte) (s : State),
    WritesOneReg (.ldImm x kk) s x kk ∧ WritesOneReg (.ldReg x y) s x (s.reg y)

/-- 42_alu.md R121 with decision D15, 43_index_timer_key.md R141 (no flag: derived there) (log 19): the
immediate add wraps at 8 bits, the add to `I` at 16 bits, and neither writes a flag. -/
def Obligations.ImmediateAndIndexAddsWrapWithoutFlag : Prop :=
  ∀ (x : Reg) (kk : Byte) (s : State),
    (∃ w : Byte, w.toNat = ((s.reg x).toNat + kk.toNat) % 256 ∧ WritesOneReg (.addImm x kk) s x w) ∧
    ∃ t, exec (.addI x) s = .next t ∧ t.i.toNat = (s.i.toNat + (s.reg x).toNat) % 65536 ∧
      t.pc = s.pc + 2 ∧ OnlyChanges [.index, .pc] s t

/-- 42_alu.md R123 to R125 (no flag: derived there, log 19): the logic instructions, bit by bit. -/
def Obligations.LogicIsBitwiseWithoutFlag : Prop :=
  ∀ (x y : Reg) (s : State), ∃ o a e : Byte,
    WritesOneReg (.orReg x y) s x o ∧ WritesOneReg (.andReg x y) s x a ∧
    WritesOneReg (.xorReg x y) s x e ∧
    ∀ k, o.getLsbD k = ((s.reg x).getLsbD k || (s.reg y).getLsbD k) ∧
      a.getLsbD k = ((s.reg x).getLsbD k && (s.reg y).getLsbD k) ∧
      e.getLsbD k = ((s.reg x).getLsbD k != (s.reg y).getLsbD k)

/-- 42_alu.md R126: the register add, `VF` = carry out; for `x` = 15 the flag stays (decision D13, log 17). -/
def Obligations.AddRegisterReportsCarry : Prop :=
  ∀ (x y : Reg) (s : State),
    WritesRegThenFlag (.addReg x y) s x (((s.reg x).toNat + (s.reg y).toNat) % 256)
      (255 < (s.reg x).toNat + (s.reg y).toNat)

/-- 42_alu.md R127, R129: the two subtractions, `VF` = no borrow; for `x` = 15 the flag stays (decision
D13, log 17). -/
def Obligations.SubtractionsReportNoBorrow : Prop :=
  ∀ (x y : Reg) (s : State),
    WritesRegThenFlag (.subReg x y) s x (((s.reg x).toNat + 256 - (s.reg y).toNat) % 256)
      ((s.reg y).toNat ≤ (s.reg x).toNat) ∧
    WritesRegThenFlag (.subnReg x y) s x (((s.reg y).toNat + 256 - (s.reg x).toNat) % 256)
      ((s.reg x).toNat ≤ (s.reg y).toNat)

/-- 42_alu.md R128, R130 with decision D14 (log 18): the shifts take `V[x]` whatever `y` is, `VF` = the
bit shifted out; for `x` = 15 the flag stays (decision D13, log 17). -/
def Obligations.ShiftsReportTheDroppedBit : Prop :=
  ∀ (x y : Reg) (s : State),
    WritesRegThenFlag (.shr x y) s x ((s.reg x).toNat / 2) ((s.reg x).toNat % 2 = 1) ∧
    WritesRegThenFlag (.shl x y) s x ((s.reg x).toNat * 2 % 256) (128 ≤ (s.reg x).toNat)

/-- 42_alu.md R133 with decision D27 (log 2): `RND` writes the drawn byte under the mask, whatever that
byte is. The byte is the next one the host has lined up and is used up; with none lined up it is the free
value of this draw. -/
def Obligations.RndMasksADrawnByte : Prop :=
  ∀ (x : Reg) (kk : Byte) (s : State), ∃ t r, exec (.rnd x kk) s = .next t ∧ t.reg x = r &&& kk ∧
    t.reg x &&& ~~~kk = 0 ∧ OtherRegsKept [x] s t ∧ t.pc = s.pc + 2 ∧
    OnlyChanges [.regs, .pc, .rand] s t ∧
    (∀ w rest, s.randIn = w :: rest → r = w ∧ t.randIn = rest ∧ t.draws = s.draws) ∧
    (s.randIn = [] → r = Config.freeByte s.draws ∧ t.randIn = [] ∧ t.draws = s.draws + 1)

/-! ### Index register, timers, memory transfer, key tests -/

/-- 43_index_timer_key.md R140: any address is accepted. -/
def Obligations.LdISetsTheIndex : Prop :=
  ∀ (nnn : Addr12) (s : State), ∃ t, exec (.ldI nnn) s = .next t ∧ t.i.toNat = nnn.toNat ∧
    t.pc = s.pc + 2 ∧ OnlyChanges [.index, .pc] s t

/-- 43_index_timer_key.md R142, R143, R144: the three timer moves. -/
def Obligations.TimerMovesCopyTheByte : Prop :=
  ∀ (x : Reg) (s : State), WritesOneReg (.ldVxDt x) s x s.dt ∧
    (∃ t, exec (.ldDtVx x) s = .next t ∧ t.dt = s.reg x ∧ t.pc = s.pc + 2 ∧
      OnlyChanges [.dt, .pc] s t) ∧
    ∃ t, exec (.ldStVx x) s = .next t ∧ t.st = s.reg x ∧ t.pc = s.pc + 2 ∧
      OnlyChanges [.st, .pc] s t

/-- 43_index_timer_key.md R145: the glyph address of a digit 0 to 15; any larger value raises. -/
def Obligations.LdFPointsAtTheGlyph : Prop :=
  ∀ (x : Reg) (s : State),
    ((s.reg x).toNat ≤ 15 → ∃ t, exec (.ldF x) s = .next t ∧ t.i.toNat = 5 * (s.reg x).toNat ∧
      t.pc = s.pc + 2 ∧ OnlyChanges [.index, .pc] s t) ∧
    (15 < (s.reg x).toNat → exec (.ldF x) s = .fault (.invalidFontDigit (s.reg x) s.pc))

/-- 43_index_timer_key.md R146: hundreds, tens and ones at `I`, `I + 1`, `I + 2`, every other byte
unchanged; the lowest failing address raises and nothing is written. -/
def Obligations.LdBStoresDecimalDigits : Prop :=
  ∀ (x : Reg) (s : State),
    (80 ≤ s.i.toNat → s.i.toNat + 2 < 4095 → ∃ t, exec (.ldB x) s = .next t ∧
      (t.byteAt s.i.toNat).toNat = (s.reg x).toNat / 100 ∧
      (t.byteAt (s.i.toNat + 1)).toNat = (s.reg x).toNat / 10 % 10 ∧
      (t.byteAt (s.i.toNat + 2)).toNat = (s.reg x).toNat % 10 ∧
      (∀ a, a < s.i.toNat ∨ s.i.toNat + 2 < a → t.byteAt a = s.byteAt a) ∧
      t.pc = s.pc + 2 ∧ OnlyChanges [.mem, .pc] s t) ∧
    (s.i.toNat < 80 → exec (.ldB x) s = .fault (.writeProtected s.i.toNat)) ∧
    (4093 ≤ s.i.toNat →
      exec (.ldB x) s = .fault (.addressOutOfRange (max s.i.toNat 4095) .write))

/-- 43_index_timer_key.md R147 (`I` unchanged: derived there, log 33): `V[0]` to `V[x]` at `I` to
`I + x`, every other byte unchanged; the lowest failing address raises and nothing is written. -/
def Obligations.BulkStoreWritesRegistersUpToX : Prop :=
  ∀ (x : Reg) (s : State),
    (80 ≤ s.i.toNat → s.i.toNat + x.val < 4095 → ∃ t, exec (.stRegs x) s = .next t ∧
      (∀ r : Reg, r ≤ x → t.byteAt (s.i.toNat + r.val) = s.reg r) ∧
      (∀ a, a < s.i.toNat ∨ s.i.toNat + x.val < a → t.byteAt a = s.byteAt a) ∧
      t.pc = s.pc + 2 ∧ OnlyChanges [.mem, .pc] s t) ∧
    (s.i.toNat < 80 → exec (.stRegs x) s = .fault (.writeProtected s.i.toNat)) ∧
    (4095 ≤ s.i.toNat + x.val →
      exec (.stRegs x) s = .fault (.addressOutOfRange (max s.i.toNat 4095) .write))

/-- 43_index_timer_key.md R148 (`I` unchanged: derived there, log 33): `V[0]` to `V[x]` from `I` to
`I + x`, the font region included, registers above `V[x]` unchanged; past the end it raises (decision D6,
log 13). -/
def Obligations.BulkLoadReadsRegistersUpToX : Prop :=
  ∀ (x : Reg) (s : State),
    (s.i.toNat + x.val < 4095 → ∃ t, exec (.ldRegs x) s = .next t ∧
      (∀ r : Reg, r ≤ x → t.reg r = s.byteAt (s.i.toNat + r.val)) ∧
      (∀ r : Reg, x < r → t.reg r = s.reg r) ∧ t.pc = s.pc + 2 ∧ OnlyChanges [.regs, .pc] s t) ∧
    (4095 ≤ s.i.toNat + x.val →
      exec (.ldRegs x) s = .fault (.addressOutOfRange (max s.i.toNat 4095) .read))

/-- The bulk load reads the layout the bulk store writes (43_index_timer_key.md R148, corner cases):
loading after storing changes no register, for every two registers of which the second is not above the
first. It rests on the store leaving `I` unchanged (derived in the spec, log 33). -/
def Obligations.BulkStoreThenLoadKeepsRegisters : Prop :=
  ∀ (x y : Reg) (s t : State), y ≤ x → exec (.stRegs x) s = .next t →
    ∃ u, exec (.ldRegs y) t = .next u ∧ ∀ r, u.reg r = s.reg r

/-- 20_memory.md R53: the bytes a store has written are the word the next fetch of them answers, with
nothing in between (self-modifying code). -/
def Obligations.StoresAreSeenByTheNextFetch : Prop :=
  ∀ (x : Reg) (s t : State),
    (exec (.stRegs x) s = .next t → ∀ (p q : Reg) (a : Word), q.val = p.val + 1 → q ≤ x →
      a.toNat = s.i.toNat + p.val →
      ∃ op, fetch (t.setPc a) = .ok op ∧ op.toNat = (s.reg p).toNat * 256 + (s.reg q).toNat) ∧
    (exec (.ldB x) s = .next t → ∃ op, fetch (t.setPc s.i) = .ok op ∧
      op.toNat = (s.reg x).toNat / 100 * 256 + (s.reg x).toNat / 10 % 10)

/-- 43_index_timer_key.md R149, R150 with decision D16 (log 20): the key skips, and the error for a
value that names no key. -/
def Obligations.KeySkipsTestTheNamedKey : Prop :=
  ∀ (x : Reg) (s : State),
    (NamedKeyIs s (s.reg x) true →
      OnlyMovesPc (.skp x) s (s.pc + 4) ∧ OnlyMovesPc (.sknp x) s (s.pc + 2)) ∧
    (NamedKeyIs s (s.reg x) false →
      OnlyMovesPc (.skp x) s (s.pc + 2) ∧ OnlyMovesPc (.sknp x) s (s.pc + 4)) ∧
    (15 < (s.reg x).toNat →
      exec (.skp x) s = .fault (.invalidKeyIndex (s.reg x) s.pc) ∧
      exec (.sknp x) s = .fault (.invalidKeyIndex (s.reg x) s.pc))

/-! ### Key wait -/

/-- 44_keywait.md R160: the latch takes the index, `pc` advances at once, `V[x]` is kept; no `EXECUTE`,
`STEP`, `KEY_UP` or `TICK` changes that, the timers run on, and a `KEY_DOWN` writes its key to `V[x]` and
ends the wait with `pc` where it is, whether the key was down or not (decision D29, log 25); `RESET` ends
it too. That `STEP` does not fetch in the wait is decision D28 (log 24), that one `TICK` moves both timers
decision D26 (log 23). -/
def Obligations.LdVxKWaitsForKeyDown : Prop :=
  ∀ (x : Reg) (s : State), ∃ t, exec (.ldVxK x) s = .next t ∧ t.wait = some x ∧ t.pc = s.pc + 2 ∧
    OnlyChanges [.wait, .pc] s t ∧
    (∀ op, perform (.execute op) t = .next t) ∧ perform .step t = .next t ∧
    (∀ k, ∃ u, perform (.keyUp k) t = .next u ∧ u.wait = some x ∧ u.key k = false ∧ u.pc = t.pc) ∧
    (∃ u, perform .tick t = .next u ∧ u.wait = some x ∧ u.dt.toNat = t.dt.toNat - 1 ∧
      u.st.toNat = t.st.toNat - 1) ∧
    (∀ k, ∃ u, perform (.keyDown k) t = .next u ∧ u.wait = none ∧ (u.reg x).toNat = k.val ∧
      u.key k = true ∧ OtherRegsKept [x] t u ∧ u.pc = t.pc) ∧
    ∃ u, perform .reset t = .next u ∧ u.wait = none

/-- 44_keywait.md R161: every change of the latch is one of the table, with the table's side effects. That
`LD Vx, K` does set it is in `LdVxKWaitsForKeyDown`, with `ExecuteRunsTheGivenWord`. `LOAD` is a command
the table does not list; it leaves the latch alone (60_exceptions.md R203). What `RESET` leaves is decision
D23 (log 22) and, for the model's own fields, the model's choice (log 30); `KEY_DOWN` at any level is D29
(log 25), one `TICK` for both timers D26 (log 23), `STEP` without a fetch D28 (log 24). -/
def Obligations.WaitLatchFollowsItsTable : Prop :=
  ∀ (c : Command) (s t : State), perform c s = .next t →
    (s.wait = none → (t.wait = none ∨ ∃ x, t.wait = some x ∧ t.pc = s.pc + 2 ∧
      ((∃ op, c = .execute op ∧ decode op = some (.ldVxK x)) ∨
        (c = .step ∧ ∃ op, fetch s = .ok op ∧ decode op = some (.ldVxK x))))) ∧
    (∀ op i, s.wait = none → c = .execute op → decode op = some i → exec i s = .next t ∧
      ((∀ x, i ≠ .ldVxK x) → t.wait = none)) ∧
    (∀ k, c = .keyDown k → t.wait = none ∧ t.key k = true ∧
      ∀ r, (s.wait = some r → t.reg r = BitVec.ofNat 8 k.val) ∧
        (s.wait ≠ some r → t.reg r = s.reg r)) ∧
    (∀ k, c = .keyUp k → t.wait = s.wait ∧ t.key k = false) ∧
    (c = .tick → t.wait = s.wait ∧ t.dt.toNat = s.dt.toNat - 1 ∧ t.st.toNat = s.st.toNat - 1) ∧
    (c = .reset → t.wait = none ∧ t = resetCommand s) ∧
    (∀ r, s.wait = some r →
      ((∃ op, c = .execute op) ∨ c = .step → t = s) ∧ (KeepsWaiting c → t.wait = some r))

/-- 44_keywait.md R162, R160 (g): without `KEY_DOWN` (and `RESET`) the block stays in the hold for ever:
through any sequence of other commands, and through any number of steps with none lined up (log 1). That no
step there raises, whatever `pc` is, is decision D28 (log 24); that the run goes on after a `LOAD` that does
not fit is the model's choice (log 5). -/
def Obligations.WithoutKeyDownTheWaitNeverEnds : Prop :=
  (∀ (cs : List Command) (s : State) (r : Reg), (∀ c ∈ cs, KeepsWaiting c) → s.wait = some r →
    s.pending = cs → ∃ t, Host.Core.run core cs.length s = .next t ∧ t.wait = some r ∧
      t.pending = [] ∧ t.pc = s.pc ∧ ∀ q, t.reg q = s.reg q) ∧
  ∀ (n : Nat) (s : State) (r : Reg), s.wait = some r → s.pending = [] →
    Host.Core.run core n s = .next s

/-! ### Display -/

/-- 45_display.md R165: `CLS` clears all pixels, and `VF` is not written. -/
def Obligations.ClsClearsThePixels : Prop :=
  ∀ s : State, ∃ t, exec .cls s = .next t ∧ (∀ x y, FrameBuffer.pixel t.fb x y = false) ∧
    t.pc = s.pc + 2 ∧ OnlyChanges [.fb, .pc] s t

/-- 45_display.md R166 with decisions D19, D21 (logs 11, 21): exactly the sprite's pixels are toggled, and
`VF` is 1 exactly when one of them was set, once for the whole sprite; no byte of the sprite may lie past
the end of memory (decision D6, log 13), where nothing is drawn. -/
def Obligations.DrwTogglesTheSpriteAndReportsCollision : Prop :=
  ∀ (x y : Reg) (n : Fin 16) (s : State),
    (n.val = 0 ∨ s.i.toNat + n.val ≤ 4095 → ∃ t, exec (.drw x y n) s = .next t ∧
      (∀ px py, (SpriteAt s x y n.val px py →
          FrameBuffer.pixel t.fb px py = !FrameBuffer.pixel s.fb px py) ∧
        (¬SpriteAt s x y n.val px py →
          FrameBuffer.pixel t.fb px py = FrameBuffer.pixel s.fb px py)) ∧
      ((∃ px py, SpriteAt s x y n.val px py ∧ FrameBuffer.pixel s.fb px py = true) →
        t.reg VF = 1) ∧
      ((¬∃ px py, SpriteAt s x y n.val px py ∧ FrameBuffer.pixel s.fb px py = true) →
        t.reg VF = 0) ∧
      OtherRegsKept [VF] s t ∧ t.pc = s.pc + 2 ∧ OnlyChanges [.fb, .regs, .pc] s t) ∧
    (0 < n.val → 4095 < s.i.toNat + n.val →
      exec (.drw x y n) s = .fault (.addressOutOfRange (max s.i.toNat 4095) .read))

/-- 45_display.md R167 (a), (b) (derived there): drawing the same sprite twice restores the pixels, and
the second draw reports a collision exactly when the sprite has a 1 bit over a pixel that was 0 before the
first. The coordinates are not `VF`, which the first draw writes (95_test_vectors.md S4). Where the sprite has a
1 bit is decisions D19, D21 (logs 11, 21). -/
def Obligations.DrawingTwiceRestoresThePixels : Prop :=
  ∀ (x y : Reg) (n : Fin 16) (s t : State), x ≠ VF → y ≠ VF → exec (.drw x y n) s = .next t →
    ∃ u, exec (.drw x y n) t = .next u ∧
      (∀ px py, FrameBuffer.pixel u.fb px py = FrameBuffer.pixel s.fb px py) ∧
      (u.reg VF = 1 ↔
        ∃ px py, SpriteAt s x y n.val px py ∧ FrameBuffer.pixel s.fb px py = false)

/-- 00_scope.md R7, 10_state.md R28 with decision D22 (log 31): the view has one entry a pixel, row after
row, and the snapshot shows every byte of memory and the stack oldest entry first. -/
def Obligations.ObserversShowPixelsBytesAndStack : Prop :=
  ∀ s : State,
    (display s).length = 2048 ∧
    (∀ x y, (display s).getD (y.val * 64 + x.val) 2 =
      if FrameBuffer.pixel s.fb x y = true then 1 else 0) ∧
    (snapshot s).mem.length = 4095 ∧ (∀ a, a < 4095 → (snapshot s).mem.getD a 0 = s.byteAt a) ∧
    ∀ w, (snapshot (s.push w)).stack = (snapshot s).stack ++ [w]

/-! ### The host's commands -/

/-- 60_exceptions.md R201, R202: `KEY_UP` clears the key's bit and nothing else; `TICK` takes one from
each timer, saturating at zero, and nothing else (one `TICK` for both: decision D26, log 23). Neither
looks at the wait latch, and neither fails. -/
def Obligations.KeyUpAndTickDoOnlyTheirPart : Prop :=
  ∀ s : State,
    (∀ k, ∃ t, perform (.keyUp k) s = .next t ∧ t.key k = false ∧ (∀ q, q ≠ k → t.key q = s.key q) ∧
      OnlyChanges [.keys] s t) ∧
    ∃ t, perform .tick s = .next t ∧ t.dt.toNat = s.dt.toNat - 1 ∧ t.st.toNat = s.st.toNat - 1 ∧
      OnlyChanges [.dt, .st] s t

/-- 60_exceptions.md R200 with decision D29 (log 25): `KEY_DOWN` sets the key's bit, and ends a wait by
writing the key to the waiting register; otherwise no register changes. -/
def Obligations.KeyDownSetsTheKeyAndEndsTheWait : Prop :=
  ∀ (s : State) (k : Key) (rest : List Command), s.pending = .keyDown k :: rest →
    ∃ t, step s = .next t ∧ t.key k = true ∧ (∀ q, q ≠ k → t.key q = s.key q) ∧ t.wait = none ∧
      t.pending = rest ∧
      (∀ r, s.wait = some r → (t.reg r).toNat = k.val ∧ OtherRegsKept [r] s t) ∧
      (s.wait = none → ∀ q, t.reg q = s.reg q) ∧ OnlyChanges [.keys, .wait, .regs, .pending] s t

/-- 60_exceptions.md R202, 10_state.md R18, R19: `n` ticks take `n` from each timer, saturating at zero,
whether the block runs or waits. That one `TICK` moves both is decision D26 (log 23), the line of commands
the model's (log 1). -/
def Obligations.TicksCountDownToZero : Prop :=
  ∀ (n : Nat) (s : State), s.pending = List.replicate n .tick →
    ∃ t, Host.Core.run core n s = .next t ∧ t.dt.toNat = s.dt.toNat - n ∧
      t.st.toNat = s.st.toNat - n ∧ OnlyChanges [.dt, .st, .pending] s t

/-- 60_exceptions.md R203 with decision D25: `LOAD` copies the bytes to 0x200 up and changes nothing else;
a sequence of more than 3583 bytes writes nothing. That the run goes on after `RomTooLarge` is the model's
choice (log 5). -/
def Obligations.LoadCopiesTheProgram : Prop :=
  ∀ (s : State) (bytes : List Byte) (rest : List Command), s.pending = .load bytes :: rest →
    ∃ t, step s = .next t ∧ t.pending = rest ∧ OnlyChanges [.mem, .pending] s t ∧
      (bytes.length ≤ 3583 →
        (loadCommand bytes s).1 = .ok bytes.length ∧
        (∀ k, k < bytes.length → t.byteAt (0x200 + k) = bytes.getD k 0) ∧
        ∀ a, a < 0x200 ∨ 0x200 + bytes.length ≤ a → t.byteAt a = s.byteAt a) ∧
      (3583 < bytes.length →
        (loadCommand bytes s).1 = .romTooLarge ∧ ∀ a, t.byteAt a = s.byteAt a)

/-- 70_reset_and_hazards.md R220, R221 (the rows for the stack, the timers, the keys and the pixels are
decision D23, log 22): `RESET` from any state. The parameter and the host's side stay (log 30). -/
def Obligations.ResetGivesTheResetState : Prop :=
  ∀ (s : State) (rest : List Command), s.pending = .reset :: rest →
    ∃ t, step s = .next t ∧ (∀ r, t.reg r = 0) ∧ t.i = 0 ∧ t.pc = 0x200 ∧ t.stack = [] ∧ t.dt = 0 ∧
      t.st = 0 ∧ (∀ k, t.key k = false) ∧ t.wait = none ∧
      (∀ x y, FrameBuffer.pixel t.fb x y = false) ∧
      (∀ a, a < 80 → t.byteAt a = config.font.getD a 0) ∧ (∀ a, 80 ≤ a → t.byteAt a = 0) ∧
      t.pending = rest ∧ t.stackDepth = s.stackDepth ∧ t.randIn = s.randIn ∧ t.draws = s.draws
end

