-- ==== Sys2Proof/Laws/Config.lean ====
section
/-! SUPPORT. The configuration record (00_scope.md R4): each parameter by its value, and each numeral in a
type of the machine as the parameter it stands for. Another value in the record breaks these. -/

namespace Sys2Proof

/-! ### The parameters, by value (`FONT` by its length) -/

@[simp] theorem config_memSize : config.memSize = 4095 := by decide
@[simp] theorem config_fontBase : config.fontBase = 0 := by decide
@[simp] theorem config_fontSize : config.fontSize = 80 := by decide
@[simp] theorem config_glyphStride : config.glyphStride = 5 := by decide
@[simp] theorem config_progBase : config.progBase = 0x200 := by decide
@[simp] theorem config_numV : config.numV = 16 := by decide
@[simp] theorem config_vWidth : config.vWidth = 8 := by decide
@[simp] theorem config_iWidth : config.iWidth = 16 := by decide
@[simp] theorem config_pcWidth : config.pcWidth = 16 := by decide
@[simp] theorem config_stackDepth : config.stackDepth = none := by decide
@[simp] theorem config_displayW : config.displayW = 64 := by decide
@[simp] theorem config_displayH : config.displayH = 32 := by decide
@[simp] theorem config_numKeys : config.numKeys = 16 := by decide
@[simp] theorem config_timerWidth : config.timerWidth = 8 := by decide
@[simp] theorem config_instrBytes : config.instrBytes = 2 := by decide

/-- `FONT` fills the font region, 16 glyphs one after the other. -/
theorem length_font :
    config.font.length = config.fontSize ∧ config.fontSize = 16 * config.glyphStride := by
  decide

/-! ### The numerals of the types -/

/-- A register index is one of `NUM_V`. -/
theorem reg_type : Reg = Fin config.numV := rfl

/-- A key is one of `NUM_KEYS`. -/
theorem key_type : Key = Fin config.numKeys := rfl

/-- A column is one of `W`. -/
theorem column_type : Column = Fin config.displayW := rfl

/-- A row is one of `H`. -/
theorem row_type : Row = Fin config.displayH := rfl

/-- A general register has `V_WIDTH` bits. -/
theorem register_type : Byte = BitVec config.vWidth := rfl

/-- A timer has `TIMER_WIDTH` bits. -/
theorem timer_type : Byte = BitVec config.timerWidth := rfl

/-- The index register has `I_WIDTH` bits. -/
theorem index_type : Word = BitVec config.iWidth := rfl

/-- `pc` and every stack entry have `PC_WIDTH` bits. -/
theorem pc_type : Word = BitVec config.pcWidth := rfl

/-- An opcode has the bits of `INSTR_BYTES` bytes. -/
theorem opcode_type : Word = BitVec (8 * config.instrBytes) := rfl

end Sys2Proof

namespace Sys2Proof.Machine

/-- The register file has `NUM_V` registers. -/
theorem State.length_v (s : State) : s.v.toList.length = config.numV := Vector.length_toList

/-- The key vector has `NUM_KEYS` bits. -/
theorem State.length_keys (s : State) : s.keys.toList.length = config.numKeys := Vector.length_toList

/-- The framebuffer has `H` rows of `W` pixels each. -/
theorem State.length_fb (s : State) :
    s.fb.toList.length = config.displayH ∧ ∀ row ∈ s.fb.toList, row.toList.length = config.displayW :=
  ⟨Vector.length_toList, fun _ _ => Vector.length_toList⟩

end Sys2Proof.Machine
end

