-- ==== Sys2Proof/Laws/State.lean ====
section
/-! SUPPORT. One lemma per field per update of the state, so that no proof unfolds a record update, and
the read-after-write laws of registers and keys. -/

namespace Sys2Proof.Machine

/-! ### `setReg` -/

@[simp] theorem State.setReg_v (s : State) (x : Reg) (w : Byte) : (s.setReg x w).v = s.v.set x.val w := rfl
@[simp] theorem State.setReg_i (s : State) (x : Reg) (w : Byte) : (s.setReg x w).i = s.i := rfl
@[simp] theorem State.setReg_pc (s : State) (x : Reg) (w : Byte) : (s.setReg x w).pc = s.pc := rfl
@[simp] theorem State.setReg_stack (s : State) (x : Reg) (w : Byte) : (s.setReg x w).stack = s.stack := rfl
@[simp] theorem State.setReg_dt (s : State) (x : Reg) (w : Byte) : (s.setReg x w).dt = s.dt := rfl
@[simp] theorem State.setReg_st (s : State) (x : Reg) (w : Byte) : (s.setReg x w).st = s.st := rfl
@[simp] theorem State.setReg_keys (s : State) (x : Reg) (w : Byte) : (s.setReg x w).keys = s.keys := rfl
@[simp] theorem State.setReg_wait (s : State) (x : Reg) (w : Byte) : (s.setReg x w).wait = s.wait := rfl
@[simp] theorem State.setReg_fb (s : State) (x : Reg) (w : Byte) : (s.setReg x w).fb = s.fb := rfl
@[simp] theorem State.setReg_mem (s : State) (x : Reg) (w : Byte) : (s.setReg x w).mem = s.mem := rfl
@[simp] theorem State.setReg_stackDepth (s : State) (x : Reg) (w : Byte) : (s.setReg x w).stackDepth = s.stackDepth := rfl
@[simp] theorem State.setReg_pending (s : State) (x : Reg) (w : Byte) : (s.setReg x w).pending = s.pending := rfl
@[simp] theorem State.setReg_randIn (s : State) (x : Reg) (w : Byte) : (s.setReg x w).randIn = s.randIn := rfl
@[simp] theorem State.setReg_draws (s : State) (x : Reg) (w : Byte) : (s.setReg x w).draws = s.draws := rfl
@[simp] theorem State.setReg_key (s : State) (x : Reg) (w : Byte) (q : Key) : (s.setReg x w).key q = s.key q := rfl
@[simp] theorem State.setReg_byteAt (s : State) (x : Reg) (w : Byte) (adr : Nat) : (s.setReg x w).byteAt adr = s.byteAt adr := rfl

/-! ### `setRegs` -/

@[simp] theorem State.setRegs_v (s : State) (v : Vector Byte 16) : (s.setRegs v).v = v := rfl
@[simp] theorem State.setRegs_i (s : State) (v : Vector Byte 16) : (s.setRegs v).i = s.i := rfl
@[simp] theorem State.setRegs_pc (s : State) (v : Vector Byte 16) : (s.setRegs v).pc = s.pc := rfl
@[simp] theorem State.setRegs_stack (s : State) (v : Vector Byte 16) : (s.setRegs v).stack = s.stack := rfl
@[simp] theorem State.setRegs_dt (s : State) (v : Vector Byte 16) : (s.setRegs v).dt = s.dt := rfl
@[simp] theorem State.setRegs_st (s : State) (v : Vector Byte 16) : (s.setRegs v).st = s.st := rfl
@[simp] theorem State.setRegs_keys (s : State) (v : Vector Byte 16) : (s.setRegs v).keys = s.keys := rfl
@[simp] theorem State.setRegs_wait (s : State) (v : Vector Byte 16) : (s.setRegs v).wait = s.wait := rfl
@[simp] theorem State.setRegs_fb (s : State) (v : Vector Byte 16) : (s.setRegs v).fb = s.fb := rfl
@[simp] theorem State.setRegs_mem (s : State) (v : Vector Byte 16) : (s.setRegs v).mem = s.mem := rfl
@[simp] theorem State.setRegs_stackDepth (s : State) (v : Vector Byte 16) : (s.setRegs v).stackDepth = s.stackDepth := rfl
@[simp] theorem State.setRegs_pending (s : State) (v : Vector Byte 16) : (s.setRegs v).pending = s.pending := rfl
@[simp] theorem State.setRegs_randIn (s : State) (v : Vector Byte 16) : (s.setRegs v).randIn = s.randIn := rfl
@[simp] theorem State.setRegs_draws (s : State) (v : Vector Byte 16) : (s.setRegs v).draws = s.draws := rfl
@[simp] theorem State.setRegs_key (s : State) (v : Vector Byte 16) (q : Key) : (s.setRegs v).key q = s.key q := rfl
@[simp] theorem State.setRegs_byteAt (s : State) (v : Vector Byte 16) (adr : Nat) : (s.setRegs v).byteAt adr = s.byteAt adr := rfl

/-! ### `setI` -/

@[simp] theorem State.setI_v (s : State) (w : Word) : (s.setI w).v = s.v := rfl
@[simp] theorem State.setI_i (s : State) (w : Word) : (s.setI w).i = w := rfl
@[simp] theorem State.setI_pc (s : State) (w : Word) : (s.setI w).pc = s.pc := rfl
@[simp] theorem State.setI_stack (s : State) (w : Word) : (s.setI w).stack = s.stack := rfl
@[simp] theorem State.setI_dt (s : State) (w : Word) : (s.setI w).dt = s.dt := rfl
@[simp] theorem State.setI_st (s : State) (w : Word) : (s.setI w).st = s.st := rfl
@[simp] theorem State.setI_keys (s : State) (w : Word) : (s.setI w).keys = s.keys := rfl
@[simp] theorem State.setI_wait (s : State) (w : Word) : (s.setI w).wait = s.wait := rfl
@[simp] theorem State.setI_fb (s : State) (w : Word) : (s.setI w).fb = s.fb := rfl
@[simp] theorem State.setI_mem (s : State) (w : Word) : (s.setI w).mem = s.mem := rfl
@[simp] theorem State.setI_stackDepth (s : State) (w : Word) : (s.setI w).stackDepth = s.stackDepth := rfl
@[simp] theorem State.setI_pending (s : State) (w : Word) : (s.setI w).pending = s.pending := rfl
@[simp] theorem State.setI_randIn (s : State) (w : Word) : (s.setI w).randIn = s.randIn := rfl
@[simp] theorem State.setI_draws (s : State) (w : Word) : (s.setI w).draws = s.draws := rfl
@[simp] theorem State.setI_reg (s : State) (w : Word) (r : Reg) : (s.setI w).reg r = s.reg r := rfl
@[simp] theorem State.setI_key (s : State) (w : Word) (q : Key) : (s.setI w).key q = s.key q := rfl
@[simp] theorem State.setI_byteAt (s : State) (w : Word) (adr : Nat) : (s.setI w).byteAt adr = s.byteAt adr := rfl

/-! ### `setPc` -/

@[simp] theorem State.setPc_v (s : State) (w : Word) : (s.setPc w).v = s.v := rfl
@[simp] theorem State.setPc_i (s : State) (w : Word) : (s.setPc w).i = s.i := rfl
@[simp] theorem State.setPc_pc (s : State) (w : Word) : (s.setPc w).pc = w := rfl
@[simp] theorem State.setPc_stack (s : State) (w : Word) : (s.setPc w).stack = s.stack := rfl
@[simp] theorem State.setPc_dt (s : State) (w : Word) : (s.setPc w).dt = s.dt := rfl
@[simp] theorem State.setPc_st (s : State) (w : Word) : (s.setPc w).st = s.st := rfl
@[simp] theorem State.setPc_keys (s : State) (w : Word) : (s.setPc w).keys = s.keys := rfl
@[simp] theorem State.setPc_wait (s : State) (w : Word) : (s.setPc w).wait = s.wait := rfl
@[simp] theorem State.setPc_fb (s : State) (w : Word) : (s.setPc w).fb = s.fb := rfl
@[simp] theorem State.setPc_mem (s : State) (w : Word) : (s.setPc w).mem = s.mem := rfl
@[simp] theorem State.setPc_stackDepth (s : State) (w : Word) : (s.setPc w).stackDepth = s.stackDepth := rfl
@[simp] theorem State.setPc_pending (s : State) (w : Word) : (s.setPc w).pending = s.pending := rfl
@[simp] theorem State.setPc_randIn (s : State) (w : Word) : (s.setPc w).randIn = s.randIn := rfl
@[simp] theorem State.setPc_draws (s : State) (w : Word) : (s.setPc w).draws = s.draws := rfl
@[simp] theorem State.setPc_reg (s : State) (w : Word) (r : Reg) : (s.setPc w).reg r = s.reg r := rfl
@[simp] theorem State.setPc_key (s : State) (w : Word) (q : Key) : (s.setPc w).key q = s.key q := rfl
@[simp] theorem State.setPc_byteAt (s : State) (w : Word) (adr : Nat) : (s.setPc w).byteAt adr = s.byteAt adr := rfl

/-! ### `setDt` -/

@[simp] theorem State.setDt_v (s : State) (w : Byte) : (s.setDt w).v = s.v := rfl
@[simp] theorem State.setDt_i (s : State) (w : Byte) : (s.setDt w).i = s.i := rfl
@[simp] theorem State.setDt_pc (s : State) (w : Byte) : (s.setDt w).pc = s.pc := rfl
@[simp] theorem State.setDt_stack (s : State) (w : Byte) : (s.setDt w).stack = s.stack := rfl
@[simp] theorem State.setDt_dt (s : State) (w : Byte) : (s.setDt w).dt = w := rfl
@[simp] theorem State.setDt_st (s : State) (w : Byte) : (s.setDt w).st = s.st := rfl
@[simp] theorem State.setDt_keys (s : State) (w : Byte) : (s.setDt w).keys = s.keys := rfl
@[simp] theorem State.setDt_wait (s : State) (w : Byte) : (s.setDt w).wait = s.wait := rfl
@[simp] theorem State.setDt_fb (s : State) (w : Byte) : (s.setDt w).fb = s.fb := rfl
@[simp] theorem State.setDt_mem (s : State) (w : Byte) : (s.setDt w).mem = s.mem := rfl
@[simp] theorem State.setDt_stackDepth (s : State) (w : Byte) : (s.setDt w).stackDepth = s.stackDepth := rfl
@[simp] theorem State.setDt_pending (s : State) (w : Byte) : (s.setDt w).pending = s.pending := rfl
@[simp] theorem State.setDt_randIn (s : State) (w : Byte) : (s.setDt w).randIn = s.randIn := rfl
@[simp] theorem State.setDt_draws (s : State) (w : Byte) : (s.setDt w).draws = s.draws := rfl
@[simp] theorem State.setDt_reg (s : State) (w : Byte) (r : Reg) : (s.setDt w).reg r = s.reg r := rfl
@[simp] theorem State.setDt_key (s : State) (w : Byte) (q : Key) : (s.setDt w).key q = s.key q := rfl
@[simp] theorem State.setDt_byteAt (s : State) (w : Byte) (adr : Nat) : (s.setDt w).byteAt adr = s.byteAt adr := rfl

/-! ### `setSt` -/

@[simp] theorem State.setSt_v (s : State) (w : Byte) : (s.setSt w).v = s.v := rfl
@[simp] theorem State.setSt_i (s : State) (w : Byte) : (s.setSt w).i = s.i := rfl
@[simp] theorem State.setSt_pc (s : State) (w : Byte) : (s.setSt w).pc = s.pc := rfl
@[simp] theorem State.setSt_stack (s : State) (w : Byte) : (s.setSt w).stack = s.stack := rfl
@[simp] theorem State.setSt_dt (s : State) (w : Byte) : (s.setSt w).dt = s.dt := rfl
@[simp] theorem State.setSt_st (s : State) (w : Byte) : (s.setSt w).st = w := rfl
@[simp] theorem State.setSt_keys (s : State) (w : Byte) : (s.setSt w).keys = s.keys := rfl
@[simp] theorem State.setSt_wait (s : State) (w : Byte) : (s.setSt w).wait = s.wait := rfl
@[simp] theorem State.setSt_fb (s : State) (w : Byte) : (s.setSt w).fb = s.fb := rfl
@[simp] theorem State.setSt_mem (s : State) (w : Byte) : (s.setSt w).mem = s.mem := rfl
@[simp] theorem State.setSt_stackDepth (s : State) (w : Byte) : (s.setSt w).stackDepth = s.stackDepth := rfl
@[simp] theorem State.setSt_pending (s : State) (w : Byte) : (s.setSt w).pending = s.pending := rfl
@[simp] theorem State.setSt_randIn (s : State) (w : Byte) : (s.setSt w).randIn = s.randIn := rfl
@[simp] theorem State.setSt_draws (s : State) (w : Byte) : (s.setSt w).draws = s.draws := rfl
@[simp] theorem State.setSt_reg (s : State) (w : Byte) (r : Reg) : (s.setSt w).reg r = s.reg r := rfl
@[simp] theorem State.setSt_key (s : State) (w : Byte) (q : Key) : (s.setSt w).key q = s.key q := rfl
@[simp] theorem State.setSt_byteAt (s : State) (w : Byte) (adr : Nat) : (s.setSt w).byteAt adr = s.byteAt adr := rfl

/-! ### `setKey` -/

@[simp] theorem State.setKey_v (s : State) (k : Key) (b : Bool) : (s.setKey k b).v = s.v := rfl
@[simp] theorem State.setKey_i (s : State) (k : Key) (b : Bool) : (s.setKey k b).i = s.i := rfl
@[simp] theorem State.setKey_pc (s : State) (k : Key) (b : Bool) : (s.setKey k b).pc = s.pc := rfl
@[simp] theorem State.setKey_stack (s : State) (k : Key) (b : Bool) : (s.setKey k b).stack = s.stack := rfl
@[simp] theorem State.setKey_dt (s : State) (k : Key) (b : Bool) : (s.setKey k b).dt = s.dt := rfl
@[simp] theorem State.setKey_st (s : State) (k : Key) (b : Bool) : (s.setKey k b).st = s.st := rfl
@[simp] theorem State.setKey_keys (s : State) (k : Key) (b : Bool) : (s.setKey k b).keys = s.keys.set k.val b := rfl
@[simp] theorem State.setKey_wait (s : State) (k : Key) (b : Bool) : (s.setKey k b).wait = s.wait := rfl
@[simp] theorem State.setKey_fb (s : State) (k : Key) (b : Bool) : (s.setKey k b).fb = s.fb := rfl
@[simp] theorem State.setKey_mem (s : State) (k : Key) (b : Bool) : (s.setKey k b).mem = s.mem := rfl
@[simp] theorem State.setKey_stackDepth (s : State) (k : Key) (b : Bool) : (s.setKey k b).stackDepth = s.stackDepth := rfl
@[simp] theorem State.setKey_pending (s : State) (k : Key) (b : Bool) : (s.setKey k b).pending = s.pending := rfl
@[simp] theorem State.setKey_randIn (s : State) (k : Key) (b : Bool) : (s.setKey k b).randIn = s.randIn := rfl
@[simp] theorem State.setKey_draws (s : State) (k : Key) (b : Bool) : (s.setKey k b).draws = s.draws := rfl
@[simp] theorem State.setKey_reg (s : State) (k : Key) (b : Bool) (r : Reg) : (s.setKey k b).reg r = s.reg r := rfl
@[simp] theorem State.setKey_byteAt (s : State) (k : Key) (b : Bool) (adr : Nat) : (s.setKey k b).byteAt adr = s.byteAt adr := rfl

/-! ### `setWait` -/

@[simp] theorem State.setWait_v (s : State) (w : Option Reg) : (s.setWait w).v = s.v := rfl
@[simp] theorem State.setWait_i (s : State) (w : Option Reg) : (s.setWait w).i = s.i := rfl
@[simp] theorem State.setWait_pc (s : State) (w : Option Reg) : (s.setWait w).pc = s.pc := rfl
@[simp] theorem State.setWait_stack (s : State) (w : Option Reg) : (s.setWait w).stack = s.stack := rfl
@[simp] theorem State.setWait_dt (s : State) (w : Option Reg) : (s.setWait w).dt = s.dt := rfl
@[simp] theorem State.setWait_st (s : State) (w : Option Reg) : (s.setWait w).st = s.st := rfl
@[simp] theorem State.setWait_keys (s : State) (w : Option Reg) : (s.setWait w).keys = s.keys := rfl
@[simp] theorem State.setWait_wait (s : State) (w : Option Reg) : (s.setWait w).wait = w := rfl
@[simp] theorem State.setWait_fb (s : State) (w : Option Reg) : (s.setWait w).fb = s.fb := rfl
@[simp] theorem State.setWait_mem (s : State) (w : Option Reg) : (s.setWait w).mem = s.mem := rfl
@[simp] theorem State.setWait_stackDepth (s : State) (w : Option Reg) : (s.setWait w).stackDepth = s.stackDepth := rfl
@[simp] theorem State.setWait_pending (s : State) (w : Option Reg) : (s.setWait w).pending = s.pending := rfl
@[simp] theorem State.setWait_randIn (s : State) (w : Option Reg) : (s.setWait w).randIn = s.randIn := rfl
@[simp] theorem State.setWait_draws (s : State) (w : Option Reg) : (s.setWait w).draws = s.draws := rfl
@[simp] theorem State.setWait_reg (s : State) (w : Option Reg) (r : Reg) : (s.setWait w).reg r = s.reg r := rfl
@[simp] theorem State.setWait_key (s : State) (w : Option Reg) (q : Key) : (s.setWait w).key q = s.key q := rfl
@[simp] theorem State.setWait_byteAt (s : State) (w : Option Reg) (adr : Nat) : (s.setWait w).byteAt adr = s.byteAt adr := rfl

/-! ### `setFb` -/

@[simp] theorem State.setFb_v (s : State) (fb : FrameBuffer) : (s.setFb fb).v = s.v := rfl
@[simp] theorem State.setFb_i (s : State) (fb : FrameBuffer) : (s.setFb fb).i = s.i := rfl
@[simp] theorem State.setFb_pc (s : State) (fb : FrameBuffer) : (s.setFb fb).pc = s.pc := rfl
@[simp] theorem State.setFb_stack (s : State) (fb : FrameBuffer) : (s.setFb fb).stack = s.stack := rfl
@[simp] theorem State.setFb_dt (s : State) (fb : FrameBuffer) : (s.setFb fb).dt = s.dt := rfl
@[simp] theorem State.setFb_st (s : State) (fb : FrameBuffer) : (s.setFb fb).st = s.st := rfl
@[simp] theorem State.setFb_keys (s : State) (fb : FrameBuffer) : (s.setFb fb).keys = s.keys := rfl
@[simp] theorem State.setFb_wait (s : State) (fb : FrameBuffer) : (s.setFb fb).wait = s.wait := rfl
@[simp] theorem State.setFb_fb (s : State) (fb : FrameBuffer) : (s.setFb fb).fb = fb := rfl
@[simp] theorem State.setFb_mem (s : State) (fb : FrameBuffer) : (s.setFb fb).mem = s.mem := rfl
@[simp] theorem State.setFb_stackDepth (s : State) (fb : FrameBuffer) : (s.setFb fb).stackDepth = s.stackDepth := rfl
@[simp] theorem State.setFb_pending (s : State) (fb : FrameBuffer) : (s.setFb fb).pending = s.pending := rfl
@[simp] theorem State.setFb_randIn (s : State) (fb : FrameBuffer) : (s.setFb fb).randIn = s.randIn := rfl
@[simp] theorem State.setFb_draws (s : State) (fb : FrameBuffer) : (s.setFb fb).draws = s.draws := rfl
@[simp] theorem State.setFb_reg (s : State) (fb : FrameBuffer) (r : Reg) : (s.setFb fb).reg r = s.reg r := rfl
@[simp] theorem State.setFb_key (s : State) (fb : FrameBuffer) (q : Key) : (s.setFb fb).key q = s.key q := rfl
@[simp] theorem State.setFb_byteAt (s : State) (fb : FrameBuffer) (adr : Nat) : (s.setFb fb).byteAt adr = s.byteAt adr := rfl

/-! ### `setMem` -/

@[simp] theorem State.setMem_v (s : State) (m : Memory) : (s.setMem m).v = s.v := rfl
@[simp] theorem State.setMem_i (s : State) (m : Memory) : (s.setMem m).i = s.i := rfl
@[simp] theorem State.setMem_pc (s : State) (m : Memory) : (s.setMem m).pc = s.pc := rfl
@[simp] theorem State.setMem_stack (s : State) (m : Memory) : (s.setMem m).stack = s.stack := rfl
@[simp] theorem State.setMem_dt (s : State) (m : Memory) : (s.setMem m).dt = s.dt := rfl
@[simp] theorem State.setMem_st (s : State) (m : Memory) : (s.setMem m).st = s.st := rfl
@[simp] theorem State.setMem_keys (s : State) (m : Memory) : (s.setMem m).keys = s.keys := rfl
@[simp] theorem State.setMem_wait (s : State) (m : Memory) : (s.setMem m).wait = s.wait := rfl
@[simp] theorem State.setMem_fb (s : State) (m : Memory) : (s.setMem m).fb = s.fb := rfl
@[simp] theorem State.setMem_mem (s : State) (m : Memory) : (s.setMem m).mem = m := rfl
@[simp] theorem State.setMem_stackDepth (s : State) (m : Memory) : (s.setMem m).stackDepth = s.stackDepth := rfl
@[simp] theorem State.setMem_pending (s : State) (m : Memory) : (s.setMem m).pending = s.pending := rfl
@[simp] theorem State.setMem_randIn (s : State) (m : Memory) : (s.setMem m).randIn = s.randIn := rfl
@[simp] theorem State.setMem_draws (s : State) (m : Memory) : (s.setMem m).draws = s.draws := rfl
@[simp] theorem State.setMem_reg (s : State) (m : Memory) (r : Reg) : (s.setMem m).reg r = s.reg r := rfl
@[simp] theorem State.setMem_key (s : State) (m : Memory) (q : Key) : (s.setMem m).key q = s.key q := rfl

/-! ### `storeBytes` -/

@[simp] theorem State.storeBytes_v (s : State) (a : Nat) (ws : List Byte) : (s.storeBytes a ws).v = s.v := rfl
@[simp] theorem State.storeBytes_i (s : State) (a : Nat) (ws : List Byte) : (s.storeBytes a ws).i = s.i := rfl
@[simp] theorem State.storeBytes_pc (s : State) (a : Nat) (ws : List Byte) : (s.storeBytes a ws).pc = s.pc := rfl
@[simp] theorem State.storeBytes_stack (s : State) (a : Nat) (ws : List Byte) : (s.storeBytes a ws).stack = s.stack := rfl
@[simp] theorem State.storeBytes_dt (s : State) (a : Nat) (ws : List Byte) : (s.storeBytes a ws).dt = s.dt := rfl
@[simp] theorem State.storeBytes_st (s : State) (a : Nat) (ws : List Byte) : (s.storeBytes a ws).st = s.st := rfl
@[simp] theorem State.storeBytes_keys (s : State) (a : Nat) (ws : List Byte) : (s.storeBytes a ws).keys = s.keys := rfl
@[simp] theorem State.storeBytes_wait (s : State) (a : Nat) (ws : List Byte) : (s.storeBytes a ws).wait = s.wait := rfl
@[simp] theorem State.storeBytes_fb (s : State) (a : Nat) (ws : List Byte) : (s.storeBytes a ws).fb = s.fb := rfl
@[simp] theorem State.storeBytes_mem (s : State) (a : Nat) (ws : List Byte) : (s.storeBytes a ws).mem = s.mem.writeBytes a ws := rfl
@[simp] theorem State.storeBytes_stackDepth (s : State) (a : Nat) (ws : List Byte) : (s.storeBytes a ws).stackDepth = s.stackDepth := rfl
@[simp] theorem State.storeBytes_pending (s : State) (a : Nat) (ws : List Byte) : (s.storeBytes a ws).pending = s.pending := rfl
@[simp] theorem State.storeBytes_randIn (s : State) (a : Nat) (ws : List Byte) : (s.storeBytes a ws).randIn = s.randIn := rfl
@[simp] theorem State.storeBytes_draws (s : State) (a : Nat) (ws : List Byte) : (s.storeBytes a ws).draws = s.draws := rfl
@[simp] theorem State.storeBytes_reg (s : State) (a : Nat) (ws : List Byte) (r : Reg) : (s.storeBytes a ws).reg r = s.reg r := rfl
@[simp] theorem State.storeBytes_key (s : State) (a : Nat) (ws : List Byte) (q : Key) : (s.storeBytes a ws).key q = s.key q := rfl

/-! ### Addresses ahead of `pc` -/

/-- One instruction on. -/
@[simp] theorem State.pcAhead_one (s : State) : s.pcAhead 1 = s.pc + 2 := rfl

/-- Two instructions on: what a skip that is taken passes to. -/
@[simp] theorem State.pcAhead_two (s : State) : s.pcAhead 2 = s.pc + 4 := rfl

/-! ### `advance` -/

@[simp] theorem State.advance_v (s : State) : (s.advance).v = s.v := rfl
@[simp] theorem State.advance_i (s : State) : (s.advance).i = s.i := rfl
@[simp] theorem State.advance_pc (s : State) : (s.advance).pc = s.pc + 2 := rfl
@[simp] theorem State.advance_stack (s : State) : (s.advance).stack = s.stack := rfl
@[simp] theorem State.advance_dt (s : State) : (s.advance).dt = s.dt := rfl
@[simp] theorem State.advance_st (s : State) : (s.advance).st = s.st := rfl
@[simp] theorem State.advance_keys (s : State) : (s.advance).keys = s.keys := rfl
@[simp] theorem State.advance_wait (s : State) : (s.advance).wait = s.wait := rfl
@[simp] theorem State.advance_fb (s : State) : (s.advance).fb = s.fb := rfl
@[simp] theorem State.advance_mem (s : State) : (s.advance).mem = s.mem := rfl
@[simp] theorem State.advance_stackDepth (s : State) : (s.advance).stackDepth = s.stackDepth := rfl
@[simp] theorem State.advance_pending (s : State) : (s.advance).pending = s.pending := rfl
@[simp] theorem State.advance_randIn (s : State) : (s.advance).randIn = s.randIn := rfl
@[simp] theorem State.advance_draws (s : State) : (s.advance).draws = s.draws := rfl
@[simp] theorem State.advance_reg (s : State) (r : Reg) : (s.advance).reg r = s.reg r := rfl
@[simp] theorem State.advance_key (s : State) (q : Key) : (s.advance).key q = s.key q := rfl
@[simp] theorem State.advance_byteAt (s : State) (adr : Nat) : (s.advance).byteAt adr = s.byteAt adr := rfl

/-! ### `skipIf` -/

@[simp] theorem State.skipIf_v (s : State) (c : Bool) : (s.skipIf c).v = s.v := rfl
@[simp] theorem State.skipIf_i (s : State) (c : Bool) : (s.skipIf c).i = s.i := rfl
@[simp] theorem State.skipIf_pc (s : State) (c : Bool) : (s.skipIf c).pc = if c then s.pc + 4 else s.pc + 2 := rfl
@[simp] theorem State.skipIf_stack (s : State) (c : Bool) : (s.skipIf c).stack = s.stack := rfl
@[simp] theorem State.skipIf_dt (s : State) (c : Bool) : (s.skipIf c).dt = s.dt := rfl
@[simp] theorem State.skipIf_st (s : State) (c : Bool) : (s.skipIf c).st = s.st := rfl
@[simp] theorem State.skipIf_keys (s : State) (c : Bool) : (s.skipIf c).keys = s.keys := rfl
@[simp] theorem State.skipIf_wait (s : State) (c : Bool) : (s.skipIf c).wait = s.wait := rfl
@[simp] theorem State.skipIf_fb (s : State) (c : Bool) : (s.skipIf c).fb = s.fb := rfl
@[simp] theorem State.skipIf_mem (s : State) (c : Bool) : (s.skipIf c).mem = s.mem := rfl
@[simp] theorem State.skipIf_stackDepth (s : State) (c : Bool) : (s.skipIf c).stackDepth = s.stackDepth := rfl
@[simp] theorem State.skipIf_pending (s : State) (c : Bool) : (s.skipIf c).pending = s.pending := rfl
@[simp] theorem State.skipIf_randIn (s : State) (c : Bool) : (s.skipIf c).randIn = s.randIn := rfl
@[simp] theorem State.skipIf_draws (s : State) (c : Bool) : (s.skipIf c).draws = s.draws := rfl
@[simp] theorem State.skipIf_reg (s : State) (c : Bool) (r : Reg) : (s.skipIf c).reg r = s.reg r := rfl
@[simp] theorem State.skipIf_key (s : State) (c : Bool) (q : Key) : (s.skipIf c).key q = s.key q := rfl
@[simp] theorem State.skipIf_byteAt (s : State) (c : Bool) (adr : Nat) : (s.skipIf c).byteAt adr = s.byteAt adr := rfl

/-! ### `setStack` -/

@[simp] theorem State.setStack_v (s : State) (stack : List Word) : (s.setStack stack).v = s.v := rfl
@[simp] theorem State.setStack_i (s : State) (stack : List Word) : (s.setStack stack).i = s.i := rfl
@[simp] theorem State.setStack_pc (s : State) (stack : List Word) : (s.setStack stack).pc = s.pc := rfl
@[simp] theorem State.setStack_stack (s : State) (stack : List Word) : (s.setStack stack).stack = stack := rfl
@[simp] theorem State.setStack_dt (s : State) (stack : List Word) : (s.setStack stack).dt = s.dt := rfl
@[simp] theorem State.setStack_st (s : State) (stack : List Word) : (s.setStack stack).st = s.st := rfl
@[simp] theorem State.setStack_keys (s : State) (stack : List Word) : (s.setStack stack).keys = s.keys := rfl
@[simp] theorem State.setStack_wait (s : State) (stack : List Word) : (s.setStack stack).wait = s.wait := rfl
@[simp] theorem State.setStack_fb (s : State) (stack : List Word) : (s.setStack stack).fb = s.fb := rfl
@[simp] theorem State.setStack_mem (s : State) (stack : List Word) : (s.setStack stack).mem = s.mem := rfl
@[simp] theorem State.setStack_stackDepth (s : State) (stack : List Word) : (s.setStack stack).stackDepth = s.stackDepth := rfl
@[simp] theorem State.setStack_pending (s : State) (stack : List Word) : (s.setStack stack).pending = s.pending := rfl
@[simp] theorem State.setStack_randIn (s : State) (stack : List Word) : (s.setStack stack).randIn = s.randIn := rfl
@[simp] theorem State.setStack_draws (s : State) (stack : List Word) : (s.setStack stack).draws = s.draws := rfl
@[simp] theorem State.setStack_reg (s : State) (stack : List Word) (r : Reg) : (s.setStack stack).reg r = s.reg r := rfl
@[simp] theorem State.setStack_key (s : State) (stack : List Word) (q : Key) : (s.setStack stack).key q = s.key q := rfl
@[simp] theorem State.setStack_byteAt (s : State) (stack : List Word) (adr : Nat) : (s.setStack stack).byteAt adr = s.byteAt adr := rfl

/-! ### `push` -/

@[simp] theorem State.push_v (s : State) (w : Word) : (s.push w).v = s.v := rfl
@[simp] theorem State.push_i (s : State) (w : Word) : (s.push w).i = s.i := rfl
@[simp] theorem State.push_pc (s : State) (w : Word) : (s.push w).pc = s.pc := rfl
@[simp] theorem State.push_stack (s : State) (w : Word) : (s.push w).stack = w :: s.stack := rfl
@[simp] theorem State.push_dt (s : State) (w : Word) : (s.push w).dt = s.dt := rfl
@[simp] theorem State.push_st (s : State) (w : Word) : (s.push w).st = s.st := rfl
@[simp] theorem State.push_keys (s : State) (w : Word) : (s.push w).keys = s.keys := rfl
@[simp] theorem State.push_wait (s : State) (w : Word) : (s.push w).wait = s.wait := rfl
@[simp] theorem State.push_fb (s : State) (w : Word) : (s.push w).fb = s.fb := rfl
@[simp] theorem State.push_mem (s : State) (w : Word) : (s.push w).mem = s.mem := rfl
@[simp] theorem State.push_stackDepth (s : State) (w : Word) : (s.push w).stackDepth = s.stackDepth := rfl
@[simp] theorem State.push_pending (s : State) (w : Word) : (s.push w).pending = s.pending := rfl
@[simp] theorem State.push_randIn (s : State) (w : Word) : (s.push w).randIn = s.randIn := rfl
@[simp] theorem State.push_draws (s : State) (w : Word) : (s.push w).draws = s.draws := rfl
@[simp] theorem State.push_reg (s : State) (w : Word) (r : Reg) : (s.push w).reg r = s.reg r := rfl
@[simp] theorem State.push_key (s : State) (w : Word) (q : Key) : (s.push w).key q = s.key q := rfl
@[simp] theorem State.push_byteAt (s : State) (w : Word) (adr : Nat) : (s.push w).byteAt adr = s.byteAt adr := rfl

/-! ### `setRegThenFlag` -/

@[simp] theorem State.setRegThenFlag_v (s : State) (x : Reg) (w : Byte) (f : Bool) : (s.setRegThenFlag x w f).v = (s.v.set x.val w).set VF.val (flagByte f) := rfl
@[simp] theorem State.setRegThenFlag_i (s : State) (x : Reg) (w : Byte) (f : Bool) : (s.setRegThenFlag x w f).i = s.i := rfl
@[simp] theorem State.setRegThenFlag_pc (s : State) (x : Reg) (w : Byte) (f : Bool) : (s.setRegThenFlag x w f).pc = s.pc := rfl
@[simp] theorem State.setRegThenFlag_stack (s : State) (x : Reg) (w : Byte) (f : Bool) : (s.setRegThenFlag x w f).stack = s.stack := rfl
@[simp] theorem State.setRegThenFlag_dt (s : State) (x : Reg) (w : Byte) (f : Bool) : (s.setRegThenFlag x w f).dt = s.dt := rfl
@[simp] theorem State.setRegThenFlag_st (s : State) (x : Reg) (w : Byte) (f : Bool) : (s.setRegThenFlag x w f).st = s.st := rfl
@[simp] theorem State.setRegThenFlag_keys (s : State) (x : Reg) (w : Byte) (f : Bool) : (s.setRegThenFlag x w f).keys = s.keys := rfl
@[simp] theorem State.setRegThenFlag_wait (s : State) (x : Reg) (w : Byte) (f : Bool) : (s.setRegThenFlag x w f).wait = s.wait := rfl
@[simp] theorem State.setRegThenFlag_fb (s : State) (x : Reg) (w : Byte) (f : Bool) : (s.setRegThenFlag x w f).fb = s.fb := rfl
@[simp] theorem State.setRegThenFlag_mem (s : State) (x : Reg) (w : Byte) (f : Bool) : (s.setRegThenFlag x w f).mem = s.mem := rfl
@[simp] theorem State.setRegThenFlag_stackDepth (s : State) (x : Reg) (w : Byte) (f : Bool) : (s.setRegThenFlag x w f).stackDepth = s.stackDepth := rfl
@[simp] theorem State.setRegThenFlag_pending (s : State) (x : Reg) (w : Byte) (f : Bool) : (s.setRegThenFlag x w f).pending = s.pending := rfl
@[simp] theorem State.setRegThenFlag_randIn (s : State) (x : Reg) (w : Byte) (f : Bool) : (s.setRegThenFlag x w f).randIn = s.randIn := rfl
@[simp] theorem State.setRegThenFlag_draws (s : State) (x : Reg) (w : Byte) (f : Bool) : (s.setRegThenFlag x w f).draws = s.draws := rfl
@[simp] theorem State.setRegThenFlag_key (s : State) (x : Reg) (w : Byte) (f : Bool) (q : Key) : (s.setRegThenFlag x w f).key q = s.key q := rfl
@[simp] theorem State.setRegThenFlag_byteAt (s : State) (x : Reg) (w : Byte) (f : Bool) (adr : Nat) : (s.setRegThenFlag x w f).byteAt adr = s.byteAt adr := rfl

/-! ### Read after write -/

/-- The register written reads as the value, every other as before (10_state.md R13). -/
theorem State.reg_setReg (s : State) (x r : Reg) (w : Byte) :
    (s.setReg x w).reg r = if r = x then w else s.reg r := by
  simp only [State.reg, State.setReg, Vector.getElem_set, Fin.ext_iff, eq_comm]

@[simp] theorem State.reg_setReg_self (s : State) (x : Reg) (w : Byte) :
    (s.setReg x w).reg x = w := by
  simp [State.reg_setReg]

theorem State.reg_setReg_ne (s : State) {x r : Reg} (w : Byte) (h : r ≠ x) :
    (s.setReg x w).reg r = s.reg r := by
  simp [State.reg_setReg, h]

/-- The flag write is the later one: `VF` holds the flag, `V[x]` the result unless it is `VF`
(40_dispatch.md R86 (b)). -/
theorem State.reg_setRegThenFlag (s : State) (x r : Reg) (w : Byte) (f : Bool) :
    (s.setRegThenFlag x w f).reg r =
      if r = VF then flagByte f else if r = x then w else s.reg r := by
  simp only [State.setRegThenFlag, State.reg_setReg]

theorem State.reg_setRegs (s : State) (v : Vector Byte 16) (r : Reg) :
    (s.setRegs v).reg r = v[r.val] := rfl

/-- The key written holds the level, every other as before (10_state.md R20). -/
theorem State.key_setKey (s : State) (k q : Key) (b : Bool) :
    (s.setKey k b).key q = if q = k then b else s.key q := by
  simp only [State.key, State.setKey, Vector.getElem_set, Fin.ext_iff, eq_comm]

/-- Two states with the same registers, one by one, have the same register file. -/
theorem State.v_ext {s t : State} (h : ∀ r, s.reg r = t.reg r) : s.v = t.v := by
  apply Vector.ext
  intro k hk
  exact h ⟨k, hk⟩

/-- Two states with the same keys, one by one, have the same key vector. -/
theorem State.keys_ext {s t : State} (h : ∀ q, s.key q = t.key q) : s.keys = t.keys := by
  apply Vector.ext
  intro k hk
  exact h ⟨k, hk⟩

/-! ### The reset state (70_reset_and_hazards.md R221) -/

/-- Every register is 0 at reset. -/
@[simp] theorem State.reset_reg (r : Reg) : State.reset.reg r = 0 := by
  show (Vector.replicate 16 (0 : Byte))[r.val] = 0
  simp

/-- Every key is up at reset. -/
@[simp] theorem State.reset_key (k : Key) : State.reset.key k = false := by
  show (Vector.replicate 16 false)[k.val] = false
  simp

end Sys2Proof.Machine
end

