-- ==== Sys2Proof/Laws/Ops.lean ====
section
/-! SUPPORT. One lemma for each shared operation that says everything it can do: the address checks, the
fetch, the draw of a random byte, the key a register names, the register lists of the bulk transfers. -/

namespace Sys2Proof.Machine

/-! ### Address checks -/

/-- No error exactly when every address passes. -/
theorem firstFault_eq_none (check : Nat → Option Fault) (a n : Nat) :
    firstFault check a n = none ↔ ∀ k, k < n → check (a + k) = none := by
  induction n generalizing a with
  | zero => simp [firstFault]
  | succ n ih =>
    rw [firstFault]
    cases hc : check a with
    | some f =>
      refine ⟨fun h => by simp at h, fun h => ?_⟩
      have := h 0 (by omega)
      simp [hc] at this
    | none =>
      simp only [ih]
      refine ⟨fun h k hk => ?_, fun h k hk => ?_⟩
      · cases k with
        | zero => simpa using hc
        | succ k => have := h k (by omega); rwa [Nat.add_assoc, Nat.add_comm 1 k] at this
      · have := h (k + 1) (by omega)
        rwa [Nat.add_assoc, Nat.add_comm 1 k]

/-- The error is that of the lowest failing address (20_memory.md R54). -/
theorem firstFault_eq_some (check : Nat → Option Fault) (a n : Nat) (f : Fault) :
    firstFault check a n = some f ↔
      ∃ k, k < n ∧ check (a + k) = some f ∧ ∀ j, j < k → check (a + j) = none := by
  induction n generalizing a with
  | zero => simp [firstFault]
  | succ n ih =>
    rw [firstFault]
    cases hc : check a with
    | some g =>
      refine ⟨fun h => ⟨0, by omega, by simpa [hc] using h, by omega⟩, ?_⟩
      rintro ⟨k, _, hk, hj⟩
      cases k with
      | zero => simpa [hc] using hk
      | succ k => have := hj 0 (by omega); simp [hc] at this
    | none =>
      simp only [ih]
      constructor
      · rintro ⟨k, hk, hf, hj⟩
        refine ⟨k + 1, by omega, by rwa [Nat.add_comm k 1, ← Nat.add_assoc], ?_⟩
        intro j hj'
        cases j with
        | zero => simpa using hc
        | succ j => have := hj j (by omega); rwa [Nat.add_assoc, Nat.add_comm 1 j] at this
      · rintro ⟨k, hk, hf, hj⟩
        cases k with
        | zero => simp [hc] at hf
        | succ k =>
          refine ⟨k, by omega, by rwa [Nat.add_assoc, Nat.add_comm 1 k], ?_⟩
          intro j hj'
          have := hj (j + 1) (by omega)
          rwa [Nat.add_assoc, Nat.add_comm 1 j]

/-- The check of `n` reads: an error for the lowest address at or above `MEM_SIZE`, when there is one
(20_memory.md R45; 45_display.md R166; 43_index_timer_key.md R148). -/
theorem firstFault_read (kind : AccessKind) (a n : Nat) :
    firstFault (readFault kind) a n =
      if 0 < n ∧ config.memSize < a + n then some (.addressOutOfRange (max a config.memSize) kind)
      else none := by
  split
  case isTrue h =>
    rw [firstFault_eq_some]
    refine ⟨max a config.memSize - a, by omega, ?_, ?_⟩
    · have e : a + (max a config.memSize - a) = max a config.memSize := by omega
      rw [e, readFault, if_pos (by omega)]
    · intro j hj
      rw [readFault, if_neg (by omega)]
  case isFalse h =>
    rw [firstFault_eq_none]
    intro k hk
    rw [readFault, if_neg (by omega)]

/-- The check of `n` stores: the font first, then the end of memory; the lowest failing address
(43_index_timer_key.md R146, R147; 60_exceptions.md R191). -/
theorem firstFault_write (a n : Nat) :
    firstFault writeFault a n =
      if 0 < n ∧ a < config.fontSize then some (.writeProtected a)
      else if 0 < n ∧ config.memSize < a + n then
        some (.addressOutOfRange (max a config.memSize) .write)
      else none := by
  have hm : config.memSize = 4095 := rfl
  have hf : config.fontSize = 80 := rfl
  split
  case isTrue h =>
    rw [firstFault_eq_some]
    exact ⟨0, by omega, by simp only [writeFault, Nat.add_zero]; rw [if_pos h.2], by omega⟩
  case isFalse h1 =>
    split
    case isTrue h =>
      rw [firstFault_eq_some]
      refine ⟨max a config.memSize - a, by omega, ?_, ?_⟩
      · have e : a + (max a config.memSize - a) = max a config.memSize := by omega
        rw [e, writeFault, if_neg (by omega), if_pos (by omega)]
      · intro j hj
        rw [writeFault, if_neg (by omega), if_neg (by omega)]
    case isFalse h =>
      rw [firstFault_eq_none]
      intro k hk
      rw [writeFault, if_neg (by omega), if_neg (by omega)]

/-! ### Fetch -/

/-- `FETCH` answers the big-endian word at `pc` when both bytes exist, and otherwise the error of the
lower byte that does not (40_dispatch.md R80). -/
theorem fetch_eq (s : State) :
    fetch s =
      if s.pc.toNat + 1 < config.memSize then
        .ok (joinBytes (s.byteAt s.pc.toNat) (s.byteAt (s.pc.toNat + 1)))
      else .error (.addressOutOfRange (max s.pc.toNat config.memSize) .fetch) := by
  have hb : config.instrBytes = 2 := rfl
  rw [fetch, firstFault_read, hb]
  by_cases h : s.pc.toNat + 1 < config.memSize
  · rw [if_neg (by omega), if_pos h]; rfl
  · rw [if_pos (by omega), if_neg h]

/-! ### Random input -/

/-- Drawing a byte changes the model's own fields for `RAND_IN` and nothing else. -/
theorem drawByte_frame (s : State) :
    ∃ bytes count, s.drawByte.2 = { s with randIn := bytes, draws := count } := by
  unfold State.drawByte
  split
  · exact ⟨_, s.draws, rfl⟩
  · exact ⟨s.randIn, s.draws + 1, rfl⟩

/-- With a byte lined up, that byte is drawn and used up. -/
theorem drawByte_cons (s : State) (w : Byte) (rest : List Byte) (h : s.randIn = w :: rest) :
    s.drawByte = (w, { s with randIn := rest }) := by
  unfold State.drawByte
  rw [h]

/-- With none lined up, the free byte of this draw comes and the next draw is another one. -/
theorem drawByte_nil (s : State) (h : s.randIn = []) :
    s.drawByte = (Config.freeByte s.draws, { s with draws := s.draws + 1 }) := by
  unfold State.drawByte
  rw [h]

/-! ### Keys and register lists -/

/-- A register names a key exactly when its value is at most 15 (43_index_timer_key.md R149). -/
theorem namedKey_eq (w : Byte) :
    namedKey w = if h : w.toNat < 16 then some ⟨w.toNat, h⟩ else none := rfl

@[simp] theorem length_regsUpTo (s : State) (x : Reg) : (regsUpTo s x).length = x.val + 1 := by
  have := x.isLt
  have hv : s.v.toList.length = 16 := Vector.length_toList
  rw [regsUpTo, List.length_take, hv]
  omega

/-- The byte stored for register `r` is `V[r]` (43_index_timer_key.md R147). -/
theorem getD_regsUpTo (s : State) (x r : Reg) (h : r ≤ x) : (regsUpTo s x).getD r.val 0 = s.reg r := by
  have hr : r.val < x.val + 1 := Nat.lt_succ_of_le h
  simp [regsUpTo, List.getD, hr, State.reg]

@[simp] theorem length_bcdDigits (w : Byte) : (bcdDigits w).length = 3 := rfl

/-- The bulk load takes the registers up to `V[x]` from memory and keeps the rest
(43_index_timer_key.md R148). -/
theorem reg_setRegs_loaded (s : State) (x r : Reg) :
    (s.setRegs (regsLoadedUpTo s x)).reg r =
      if r ≤ x then s.byteAt (s.i.toNat + r.val) else s.reg r := by
  simp [State.reg_setRegs, regsLoadedUpTo, indexed]

end Sys2Proof.Machine
end

