-- ==== Sys2Proof/Laws/Commands.lean ====
section
/-! SUPPORT. Everything a command and a step can do, said once, so that no later proof unfolds them. -/

namespace Sys2Proof.Machine

/-- `EXECUTE` on a running block is the instruction (40_dispatch.md R82). -/
theorem executeWord_running {op : Word} {i : Instr} {s : State} (hw : s.wait = none)
    (hd : decode op = some i) : executeWord op s = exec i s := by
  simp [executeWord, hw, hd]

/-- What `EXECUTE` can do: nothing while waiting, or the instruction of the word. -/
theorem executeWord_cases {op : Word} {s t : State} (h : executeWord op s = .next t) :
    (∃ r, s.wait = some r ∧ t = s) ∨
      ∃ i, s.wait = none ∧ decode op = some i ∧ exec i s = .next t := by
  unfold executeWord at h
  split at h
  case h_1 r hr =>
    injection h with h
    exact .inl ⟨r, hr, h.symm⟩
  case h_2 hr =>
    split at h
    · simp [raise] at h
    case h_2 i hi => exact .inr ⟨i, hr, hi, h⟩

/-- What `STEP` can do: nothing while waiting, or the instruction of the word it fetched. -/
theorem stepCommand_cases {s t : State} (h : stepCommand s = .next t) :
    (∃ r, s.wait = some r ∧ t = s) ∨
      ∃ op i, s.wait = none ∧ fetch s = .ok op ∧ decode op = some i ∧ exec i s = .next t := by
  unfold stepCommand at h
  split at h
  case h_1 r hr =>
    injection h with h
    exact .inl ⟨r, hr, h.symm⟩
  case h_2 hr =>
    split at h
    · simp [raise] at h
    case h_2 op hop =>
      rcases executeWord_cases h with ⟨r, hr', -⟩ | ⟨i, -, hi, he⟩
      · simp [hr] at hr'
      · exact .inr ⟨op, i, hr, hop, hi, he⟩

/-- What a command can do. -/
theorem perform_cases {c : Command} {s t : State} (h : perform c s = .next t) :
    (c = .reset ∧ t = resetCommand s) ∨
    (∃ bytes, c = .load bytes ∧ t = (loadCommand bytes s).2) ∨
    (∃ k, c = .keyDown k ∧ t = keyDownCommand k s) ∨
    (∃ k, c = .keyUp k ∧ t = keyUpCommand k s) ∨
    (c = .tick ∧ t = tickCommand s) ∨
    (((∃ op, c = .execute op) ∨ c = .step) ∧ (∃ r, s.wait = some r) ∧ t = s) ∨
    (∃ op i, (c = .execute op ∨ (c = .step ∧ fetch s = .ok op)) ∧ s.wait = none ∧
      decode op = some i ∧ exec i s = .next t) := by
  cases c with
  | reset => injection h with h; exact .inl ⟨rfl, h.symm⟩
  | load bytes => injection h with h; exact .inr (.inl ⟨bytes, rfl, h.symm⟩)
  | keyDown k => injection h with h; exact .inr (.inr (.inl ⟨k, rfl, h.symm⟩))
  | keyUp k => injection h with h; exact .inr (.inr (.inr (.inl ⟨k, rfl, h.symm⟩)))
  | tick => injection h with h; exact .inr (.inr (.inr (.inr (.inl ⟨rfl, h.symm⟩))))
  | execute op =>
    refine .inr (.inr (.inr (.inr (.inr ?_))))
    rcases executeWord_cases h with ⟨r, hr, ht⟩ | ⟨i, hw, hd, he⟩
    · exact .inl ⟨.inl ⟨op, rfl⟩, ⟨r, hr⟩, ht⟩
    · exact .inr ⟨op, i, .inl rfl, hw, hd, he⟩
  | step =>
    refine .inr (.inr (.inr (.inr (.inr ?_))))
    rcases stepCommand_cases h with ⟨r, hr, ht⟩ | ⟨op, i, hw, hf, hd, he⟩
    · exact .inl ⟨.inr rfl, ⟨r, hr⟩, ht⟩
    · exact .inr ⟨op, i, .inr ⟨rfl, hf⟩, hw, hd, he⟩

/-- A step with a command lined up performs that command on the rest (00_scope.md R8). -/
theorem step_cons {s : State} {c : Command} {rest : List Command} (h : s.pending = c :: rest) :
    step s = perform c { s with pending := rest } := by
  simp [step, performNext, h]

/-- A step with no command lined up performs `STEP`. -/
theorem step_nil {s : State} (h : s.pending = []) : step s = perform .step s := by
  simp [step, performNext, h, perform]

/-- What a step can do: perform one command. -/
theorem step_cases {s t : State} (h : step s = .next t) :
    (s.pending = [] ∧ perform .step s = .next t) ∨
      ∃ c rest, s.pending = c :: rest ∧ perform c { s with pending := rest } = .next t := by
  cases hp : s.pending with
  | nil => exact .inl ⟨rfl, by rwa [← step_nil hp]⟩
  | cons c rest => exact .inr ⟨c, rest, rfl, by rwa [← step_cons hp]⟩

/-- A run of any machine whose first step answers a next state goes on from there. -/
theorem run_succ_of_step (M : Host.Core) {s t : M.State} (h : M.step s = .next t) (k : Nat) :
    M.run (k + 1) s = M.run k t := by
  simp only [Host.Core.run, h]

/-- The same for this machine. -/
theorem run_succ {s t : State} (h : step s = .next t) (k : Nat) :
    Host.Core.run Sys2Proof.core (k + 1) s = Host.Core.run Sys2Proof.core k t :=
  run_succ_of_step Sys2Proof.core h k

end Sys2Proof.Machine
end

