-- ==== Sys2Proof/Laws/Decode.lean ====
section
/-! SUPPORT. The fields of a composed word (30_encoding.md R61): each encoder helper and each field in
one lemma, so that no proof about encodings works on bits again. -/

namespace Sys2Proof

/-- Concatenation as arithmetic: `a ++ b` has `a` in the high bits (00_scope.md R10). -/
theorem toNat_concat {n m : Nat} (a : BitVec n) (b : BitVec m) :
    (a ++ b).toNat = a.toNat * 2 ^ m + b.toNat := by
  rw [BitVec.toNat_append, ← Nat.shiftLeft_add_eq_or_of_lt b.isLt, Nat.shiftLeft_eq]

theorem toNat_wordXYN (a x y n : Nibble) :
    (wordXYN a x y n).toNat = a.toNat * 4096 + x.toNat * 256 + y.toNat * 16 + n.toNat := by
  have h : (wordXYN a x y n).toNat = (a ++ x ++ y ++ n).toNat := rfl
  rw [h, toNat_concat, toNat_concat, toNat_concat]
  omega

theorem toNat_wordXKK (a x : Nibble) (kk : Byte) :
    (wordXKK a x kk).toNat = a.toNat * 4096 + x.toNat * 256 + kk.toNat := by
  have h : (wordXKK a x kk).toNat = (a ++ x ++ kk).toNat := rfl
  rw [h, toNat_concat, toNat_concat]
  omega

theorem toNat_wordNNN (a : Nibble) (nnn : Addr12) :
    (wordNNN a nnn).toNat = a.toNat * 4096 + nnn.toNat := toNat_concat a nnn

theorem toNat_fieldA (op : Word) : (fieldA op).toNat = op.toNat / 4096 % 16 := by
  simp [fieldA, BitVec.extractLsb_toNat, Nat.shiftRight_eq_div_pow]

theorem toNat_fieldX (op : Word) : (fieldX op).toNat = op.toNat / 256 % 16 := by
  simp [fieldX, BitVec.extractLsb_toNat, Nat.shiftRight_eq_div_pow]

theorem toNat_fieldY (op : Word) : (fieldY op).toNat = op.toNat / 16 % 16 := by
  simp [fieldY, BitVec.extractLsb_toNat, Nat.shiftRight_eq_div_pow]

theorem toNat_fieldN (op : Word) : (fieldN op).toNat = op.toNat % 16 := by
  simp [fieldN, BitVec.extractLsb_toNat]

theorem toNat_fieldKK (op : Word) : (fieldKK op).toNat = op.toNat % 256 := by
  simp [fieldKK, BitVec.extractLsb_toNat]

theorem toNat_fieldNNN (op : Word) : (fieldNNN op).toNat = op.toNat % 4096 := by
  simp [fieldNNN, BitVec.extractLsb_toNat]

@[simp] theorem fieldA_wordXYN (a x y n : Nibble) : fieldA (wordXYN a x y n) = a := by
  apply BitVec.eq_of_toNat_eq
  rw [toNat_fieldA, toNat_wordXYN]; omega

@[simp] theorem fieldX_wordXYN (a x y n : Nibble) : fieldX (wordXYN a x y n) = x := by
  apply BitVec.eq_of_toNat_eq
  rw [toNat_fieldX, toNat_wordXYN]; omega

@[simp] theorem fieldY_wordXYN (a x y n : Nibble) : fieldY (wordXYN a x y n) = y := by
  apply BitVec.eq_of_toNat_eq
  rw [toNat_fieldY, toNat_wordXYN]; omega

@[simp] theorem fieldN_wordXYN (a x y n : Nibble) : fieldN (wordXYN a x y n) = n := by
  apply BitVec.eq_of_toNat_eq
  rw [toNat_fieldN, toNat_wordXYN]; omega

@[simp] theorem fieldA_wordXKK (a x : Nibble) (kk : Byte) : fieldA (wordXKK a x kk) = a := by
  apply BitVec.eq_of_toNat_eq
  rw [toNat_fieldA, toNat_wordXKK]; omega

@[simp] theorem fieldX_wordXKK (a x : Nibble) (kk : Byte) : fieldX (wordXKK a x kk) = x := by
  apply BitVec.eq_of_toNat_eq
  rw [toNat_fieldX, toNat_wordXKK]; omega

@[simp] theorem fieldKK_wordXKK (a x : Nibble) (kk : Byte) : fieldKK (wordXKK a x kk) = kk := by
  apply BitVec.eq_of_toNat_eq
  rw [toNat_fieldKK, toNat_wordXKK]; omega

@[simp] theorem fieldA_wordNNN (a : Nibble) (nnn : Addr12) : fieldA (wordNNN a nnn) = a := by
  apply BitVec.eq_of_toNat_eq
  rw [toNat_fieldA, toNat_wordNNN]; omega

@[simp] theorem fieldNNN_wordNNN (a : Nibble) (nnn : Addr12) : fieldNNN (wordNNN a nnn) = nnn := by
  apply BitVec.eq_of_toNat_eq
  rw [toNat_fieldNNN, toNat_wordNNN]; omega

@[simp] theorem ofNibble_toNibble (r : Fin 16) : ofNibble (toNibble r) = r := rfl

@[simp] theorem toNibble_ofNibble (b : Nibble) : toNibble (ofNibble b) = b := rfl

/-- A word is its four fields. -/
theorem wordXYN_fields (op : Word) : wordXYN (fieldA op) (fieldX op) (fieldY op) (fieldN op) = op := by
  apply BitVec.eq_of_toNat_eq
  rw [toNat_wordXYN, toNat_fieldA, toNat_fieldX, toNat_fieldY, toNat_fieldN]; omega

/-- A word is its class, its `x` and its low byte. -/
theorem wordXKK_fields (op : Word) : wordXKK (fieldA op) (fieldX op) (fieldKK op) = op := by
  apply BitVec.eq_of_toNat_eq
  rw [toNat_wordXKK, toNat_fieldA, toNat_fieldX, toNat_fieldKK]; omega

/-- A word is its class and its address. -/
theorem wordNNN_fields (op : Word) : wordNNN (fieldA op) (fieldNNN op) = op := by
  apply BitVec.eq_of_toNat_eq
  rw [toNat_wordNNN, toNat_fieldA, toNat_fieldNNN]; omega

/-- The two bytes of a word are the word (20_memory.md R44). -/
@[simp] theorem joinBytes_bytes (op : Word) : joinBytes (highByte op) (lowByte op) = op := by
  apply BitVec.eq_of_toNat_eq
  have h : (joinBytes (highByte op) (lowByte op)).toNat = (highByte op ++ lowByte op).toNat := rfl
  have h1 : (highByte op).toNat = op.toNat / 256 % 256 := by
    simp [highByte, BitVec.extractLsb_toNat, Nat.shiftRight_eq_div_pow]
  have h2 : (lowByte op).toNat = op.toNat % 256 := by
    simp [lowByte, BitVec.extractLsb_toNat]
  rw [h, toNat_concat, h1, h2]
  omega

/-- A word under a mask, field by field. -/
theorem wordXYN_and (a x y n a' x' y' n' : Nibble) :
    wordXYN a x y n &&& wordXYN a' x' y' n' = wordXYN (a &&& a') (x &&& x') (y &&& y') (n &&& n') := by
  apply BitVec.eq_of_getLsbD_eq
  intro k hk
  have e (p q r t : Nibble) : (wordXYN p q r t).getLsbD k = (p ++ q ++ r ++ t).getLsbD k := rfl
  rw [BitVec.getLsbD_and, e, e, e]
  simp only [BitVec.getLsbD_append, BitVec.getLsbD_and]
  repeat' split
  all_goals rfl

/-- As `wordXYN_and`, for a word with a byte operand. -/
theorem wordXKK_and (a x a' x' : Nibble) (kk kk' : Byte) :
    wordXKK a x kk &&& wordXKK a' x' kk' = wordXKK (a &&& a') (x &&& x') (kk &&& kk') := by
  apply BitVec.eq_of_getLsbD_eq
  intro k hk
  have e (p q : Nibble) (r : Byte) : (wordXKK p q r).getLsbD k = (p ++ q ++ r).getLsbD k := rfl
  rw [BitVec.getLsbD_and, e, e, e]
  simp only [BitVec.getLsbD_append, BitVec.getLsbD_and]
  repeat' split
  all_goals rfl

/-! ### What each mask of the opcode map keeps (30_encoding.md R63) -/

/-- Mask F000 keeps the class. -/
theorem and_F000 (op : Word) : op &&& 0xF000#16 = wordXYN (fieldA op) 0 0 0 := by
  have h := wordXYN_and (fieldA op) (fieldX op) (fieldY op) (fieldN op) 0xF 0#4 0#4 0#4
  have hA : fieldA op &&& (0xF : Nibble) = fieldA op := BitVec.and_allOnes (w := 4)
  rwa [wordXYN_fields, hA, BitVec.and_zero, BitVec.and_zero, BitVec.and_zero] at h

/-- Mask F00F keeps the class and the low nibble. -/
theorem and_F00F (op : Word) : op &&& 0xF00F#16 = wordXYN (fieldA op) 0 0 (fieldN op) := by
  have h := wordXYN_and (fieldA op) (fieldX op) (fieldY op) (fieldN op) 0xF 0#4 0#4 0xF
  have hA : fieldA op &&& (0xF : Nibble) = fieldA op := BitVec.and_allOnes (w := 4)
  have hN : fieldN op &&& (0xF : Nibble) = fieldN op := BitVec.and_allOnes (w := 4)
  rwa [wordXYN_fields, hA, hN, BitVec.and_zero, BitVec.and_zero] at h

/-- Mask F0FF keeps the class and the low byte. -/
theorem and_F0FF (op : Word) : op &&& 0xF0FF#16 = wordXKK (fieldA op) 0 (fieldKK op) := by
  have h := wordXKK_and (fieldA op) (fieldX op) 0xF 0#4 (fieldKK op) 0xFF
  have hA : fieldA op &&& (0xF : Nibble) = fieldA op := BitVec.and_allOnes (w := 4)
  have hK : fieldKK op &&& (0xFF : Byte) = fieldKK op := BitVec.and_allOnes (w := 8)
  rwa [wordXKK_fields, hA, hK, BitVec.and_zero] at h

end Sys2Proof
end

