-- ==== Sys2Proof/Laws/Display.lean ====
section
/-! SUPPORT. The framebuffer pixel by pixel (10_state.md R22). -/

namespace Sys2Proof.Machine

/-- The pixel written holds the value, every other as before. -/
theorem FrameBuffer.pixel_setPixel (fb : FrameBuffer) (x x' : Column) (y y' : Row) (b : Bool) :
    FrameBuffer.pixel (FrameBuffer.setPixel fb x y b) x' y' =
      if x' = x ∧ y' = y then b else FrameBuffer.pixel fb x' y' := by
  simp only [FrameBuffer.pixel, FrameBuffer.setPixel, Vector.getElem_set]
  by_cases hy : y' = y
  · subst hy
    by_cases hx : x' = x
    · subst hx; simp
    · have : x.val ≠ x'.val := fun h => hx (Fin.ext h.symm)
      simp [hx, this]
  · have : y.val ≠ y'.val := fun h => hy (Fin.ext h.symm)
    simp [hy, this]

/-- A cleared framebuffer has every pixel 0 (45_display.md R165). -/
@[simp] theorem FrameBuffer.pixel_clear (x : Column) (y : Row) :
    FrameBuffer.pixel FrameBuffer.clear x y = false := by
  show (Vector.replicate 32 (Vector.replicate 64 false))[y.val][x.val] = false
  simp

/-- The display column of a sprite column (45_display.md R166). -/
@[simp] theorem val_spriteColumn (vx : Byte) (col : Nat) :
    (spriteColumn vx col).val = (vx.toNat + col) % 64 := rfl

/-- The display row of a sprite row (45_display.md R166). -/
@[simp] theorem val_spriteRow (vy : Byte) (row : Nat) :
    (spriteRow vy row).val = (vy.toNat + row) % 32 := rfl

/-- Every pixel is 0 at reset (70_reset_and_hazards.md R221). -/
theorem pixel_reset (x : Column) (y : Row) : FrameBuffer.pixel State.reset.fb x y = false :=
  FrameBuffer.pixel_clear x y

/-- Two framebuffers with the same pixels are the same. -/
theorem FrameBuffer.pixel_ext {fb gb : FrameBuffer}
    (h : ∀ x y, FrameBuffer.pixel fb x y = FrameBuffer.pixel gb x y) : fb = gb := by
  apply Vector.ext
  intro y hy
  apply Vector.ext
  intro x hx
  exact h ⟨x, hx⟩ ⟨y, hy⟩

/-- A plot toggles its own pixel and no other (45_display.md R166). -/
theorem pixel_plot (x x' : Column) (y y' : Row) (d : FrameBuffer × Bool) :
    FrameBuffer.pixel (plot x y d).1 x' y' =
      (FrameBuffer.pixel d.1 x' y' ^^ decide (x' = x ∧ y' = y)) := by
  rw [plot, FrameBuffer.pixel_setPixel]
  by_cases h : x' = x ∧ y' = y
  · obtain ⟨rfl, rfl⟩ := h
    simp
  · simp [h]

/-- A plot collides exactly when its pixel was set, and keeps an earlier collision (45_display.md R166). -/
theorem collision_plot (x : Column) (y : Row) (d : FrameBuffer × Bool) :
    (plot x y d).2 = (d.2 || FrameBuffer.pixel d.1 x y) := rfl

end Sys2Proof.Machine
end

