-- ==== Sys2Proof/Laws/Exec.lean ====
section
/-! SUPPORT. For each meaning that can raise an error: exactly when it answers a next state, and which.
The other meanings answer a next state by definition. -/

namespace Sys2Proof.Machine

/-- `n` stores pass the checks exactly when there is none, or all lie between the font and the end. -/
theorem firstFault_write_none (a n : Nat) :
    firstFault writeFault a n = none ↔
      n = 0 ∨ (config.fontSize ≤ a ∧ a + n ≤ config.memSize) := by
  rw [firstFault_write]
  by_cases h1 : 0 < n ∧ a < config.fontSize
  · rw [if_pos h1]
    exact ⟨fun h => by simp at h, fun h => by omega⟩
  · rw [if_neg h1]
    by_cases h2 : 0 < n ∧ config.memSize < a + n
    · rw [if_pos h2]
      exact ⟨fun h => by simp at h, fun h => by omega⟩
    · rw [if_neg h2]
      exact ⟨fun _ => by omega, fun _ => rfl⟩

/-- `n` reads pass the checks exactly when there is none, or all lie below the end of memory. -/
theorem firstFault_read_none (kind : AccessKind) (a n : Nat) :
    firstFault (readFault kind) a n = none ↔ n = 0 ∨ a + n ≤ config.memSize := by
  rw [firstFault_read]
  by_cases h : 0 < n ∧ config.memSize < a + n
  · rw [if_pos h]
    exact ⟨fun h => by simp at h, fun h => by omega⟩
  · rw [if_neg h]
    exact ⟨fun _ => by omega, fun _ => rfl⟩

/-- A meaning that checks first and then writes answers a next state exactly when the checks pass. -/
theorem checked_next {o : Option Fault} {u t : State} :
    ((match o with
      | some f => raise f
      | none => .next u) : Host.Outcome State Fault Refusal) = .next t ↔ o = none ∧ t = u := by
  cases o <;> simp [raise, eq_comm]

theorem execRet_next {s t : State} :
    execRet s = .next t ↔ ∃ w rest, s.stack = w :: rest ∧ t = (s.setStack rest).setPc w := by
  unfold execRet raise
  cases h : s.stack with
  | nil => simp
  | cons w rest =>
    refine ⟨fun e => ⟨w, rest, rfl, by simpa using e.symm⟩, ?_⟩
    rintro ⟨_, _, e, rfl⟩
    injection e with e1 e2
    rw [e1, e2]

theorem execCall_next {nnn : Addr12} {s t : State} :
    execCall nnn s = .next t ↔
      s.stackFull = false ∧ t = (s.push (s.pc + 2)).setPc (absolute nnn) := by
  unfold execCall raise
  cases h : s.stackFull <;> simp [eq_comm]

theorem execLdF_next {x : Reg} {s t : State} :
    execLdF x s = .next t ↔
      (s.reg x).toNat ≤ 15 ∧ t = (s.setI (glyphAddress (s.reg x))).advance := by
  unfold execLdF raise
  by_cases h : 15 < (s.reg x).toNat
  · simp [h, Nat.not_le_of_lt h]
  · simp [h, Nat.le_of_not_lt h, eq_comm]

theorem execLdB_next {x : Reg} {s t : State} :
    execLdB x s = .next t ↔
      (config.fontSize ≤ s.i.toNat ∧ s.i.toNat + 3 ≤ config.memSize) ∧
        t = (s.storeBytes s.i.toNat (bcdDigits (s.reg x))).advance := by
  have h : firstFault writeFault (indexed s 0) 3 = none ↔
      config.fontSize ≤ s.i.toNat ∧ s.i.toNat + 3 ≤ config.memSize := by
    rw [firstFault_write_none]; simp [indexed]
  rw [← h]
  exact checked_next

theorem execStRegs_next {x : Reg} {s t : State} :
    execStRegs x s = .next t ↔
      (config.fontSize ≤ s.i.toNat ∧ s.i.toNat + (x.val + 1) ≤ config.memSize) ∧
        t = (s.storeBytes s.i.toNat (regsUpTo s x)).advance := by
  have h : firstFault writeFault (indexed s 0) (x.val + 1) = none ↔
      config.fontSize ≤ s.i.toNat ∧ s.i.toNat + (x.val + 1) ≤ config.memSize := by
    rw [firstFault_write_none]; simp [indexed]
  rw [← h]
  exact checked_next

theorem execLdRegs_next {x : Reg} {s t : State} :
    execLdRegs x s = .next t ↔
      s.i.toNat + (x.val + 1) ≤ config.memSize ∧ t = (s.setRegs (regsLoadedUpTo s x)).advance := by
  have h : firstFault (readFault .read) (indexed s 0) (x.val + 1) = none ↔
      s.i.toNat + (x.val + 1) ≤ config.memSize := by
    rw [firstFault_read_none]; simp [indexed]
  rw [← h]
  exact checked_next

theorem execDrw_next {x y : Reg} {n : Fin 16} {s t : State} :
    execDrw x y n s = .next t ↔
      (n.val = 0 ∨ s.i.toNat + n.val ≤ config.memSize) ∧
        t = ((s.setFb (drawSprite (s.reg x) (s.reg y) (spriteBytes s n.val) s.fb).1).setReg VF
          (flagByte (drawSprite (s.reg x) (s.reg y) (spriteBytes s n.val) s.fb).2)).advance := by
  have h : firstFault (readFault .read) (indexed s 0) n.val = none ↔
      n.val = 0 ∨ s.i.toNat + n.val ≤ config.memSize := by
    rw [firstFault_read_none]; rfl
  rw [← h]
  exact checked_next

theorem skipOnKey_next {x : Reg} {down : Bool} {s t : State} :
    skipOnKey x down s = .next t ↔
      ∃ k, namedKey (s.reg x) = some k ∧ t = s.skipIf (s.key k == down) := by
  unfold skipOnKey raise
  cases h : namedKey (s.reg x) <;> simp [eq_comm]

end Sys2Proof.Machine
end

