-- ==== Sys2Proof/Laws/Memory.lean ====
section
/-! SUPPORT. The laws of memory: read after write, and that every memory operation keeps the canonical
form and the range of listed addresses. -/

namespace Sys2Proof.Machine

/-! ### Read after write -/

theorem Memory.read_filter_ne (m : Memory) (a b : Nat) (h : b ≠ a) :
    Memory.read (m.filter fun c => c.1 != a) b = Memory.read m b := by
  induction m with
  | nil => rfl
  | cons c rest ih =>
    obtain ⟨d, w⟩ := c
    by_cases hd : d = a
    · subst hd
      simp [Memory.read, Ne.symm h, ih]
    · simp [Memory.read, hd, ih]

theorem Memory.read_filter_self (m : Memory) (a : Nat) :
    Memory.read (m.filter fun c => c.1 != a) a = Memory.resetByte a := by
  induction m with
  | nil => rfl
  | cons c rest ih =>
    obtain ⟨d, w⟩ := c
    by_cases hd : d = a
    · simp [hd, ih]
    · simp [Memory.read, hd, ih]

theorem Memory.read_insert (m : Memory) (a b : Nat) (w : Byte) (h : ∀ c ∈ m, c.1 ≠ a) :
    Memory.read (Memory.insert a w m) b = if b = a then w else Memory.read m b := by
  induction m with
  | nil =>
    by_cases hb : b = a
    · simp [Memory.insert, Memory.read, hb]
    · simp [Memory.insert, Memory.read, hb, Ne.symm hb]
  | cons c rest ih =>
    obtain ⟨d, u⟩ := c
    have hd : d ≠ a := h (d, u) (by simp)
    have ih' := ih fun c hc => h c (by simp [hc])
    simp only [Memory.insert]
    split
    · by_cases hb : b = a
      · simp [Memory.read, hb]
      · simp [Memory.read, hb, Ne.symm hb]
    · simp only [Memory.read, ih']
      by_cases hb : b = a
      · subst hb; simp [hd]
      · simp [hb]

/-- A read after a write: the byte written at its address, every other byte as before
(20_memory.md R46). -/
theorem Memory.read_write (m : Memory) (a b : Nat) (w : Byte) :
    Memory.read (m.write a w) b = if b = a then w else Memory.read m b := by
  unfold Memory.write
  simp only
  by_cases hw : w = Memory.resetByte a
  · rw [if_pos hw]
    by_cases hb : b = a
    · subst hb; rw [Memory.read_filter_self, if_pos rfl, hw]
    · rw [Memory.read_filter_ne _ _ _ hb, if_neg hb]
  · rw [if_neg hw, Memory.read_insert]
    · by_cases hb : b = a
      · simp [hb]
      · rw [if_neg hb, if_neg hb, Memory.read_filter_ne _ _ _ hb]
    · intro c hc
      simpa using (List.mem_filter.1 hc).2

/-- A read after several writes at rising addresses. -/
theorem Memory.read_writeBytes (m : Memory) (a b : Nat) (ws : List Byte) :
    Memory.read (m.writeBytes a ws) b =
      if a ≤ b ∧ b < a + ws.length then ws.getD (b - a) 0 else Memory.read m b := by
  induction ws generalizing m a with
  | nil =>
    rw [Memory.writeBytes, List.length_nil, if_neg (by omega)]
  | cons w ws ih =>
    rw [Memory.writeBytes, ih, Memory.read_write, List.length_cons]
    by_cases hb : b = a
    · subst hb
      rw [if_neg (by omega), if_pos rfl, if_pos (by omega), Nat.sub_self]
      rfl
    · rw [if_neg hb]
      by_cases hin : a ≤ b ∧ b < a + (ws.length + 1)
      · rw [if_pos (by omega), if_pos hin]
        have hs : b - a = (b - (a + 1)) + 1 := by omega
        rw [hs, List.getD_cons_succ]
      · rw [if_neg (by omega), if_neg hin]

/-- Every address outside the bytes written reads as before. -/
theorem Memory.read_writeBytes_outside (m : Memory) (a b : Nat) (ws : List Byte)
    (h : b < a ∨ a + ws.length ≤ b) : Memory.read (m.writeBytes a ws) b = Memory.read m b := by
  rw [Memory.read_writeBytes, if_neg (by omega)]

@[simp] theorem Memory.length_readBytes (m : Memory) (a n : Nat) :
    (m.readBytes a n).length = n := by
  simp [Memory.readBytes]

theorem Memory.getD_readBytes (m : Memory) (a n k : Nat) (h : k < n) :
    (m.readBytes a n).getD k 0 = m.read (a + k) := by
  simp [Memory.readBytes, List.getD, h]

/-! ### The canonical form -/

theorem Memory.mem_insert {a : Nat} {w : Byte} {m : Memory} {c : Host.Cell}
    (h : c ∈ Memory.insert a w m) : c = (a, w) ∨ c ∈ m := by
  induction m with
  | nil => simpa [Memory.insert] using h
  | cons d rest ih =>
    obtain ⟨b, u⟩ := d
    simp only [Memory.insert] at h
    split at h
    · simpa using h
    · rcases List.mem_cons.1 h with h | h
      · exact .inr (by simp [h])
      · rcases ih h with h | h
        · exact .inl h
        · exact .inr (by simp [h])

theorem Memory.sorted_insert (a : Nat) (w : Byte) (m : Memory)
    (hs : m.Pairwise fun c d => c.1 < d.1) (hn : ∀ c ∈ m, c.1 ≠ a) :
    (Memory.insert a w m).Pairwise fun c d => c.1 < d.1 := by
  induction m with
  | nil => simp [Memory.insert]
  | cons d rest ih =>
    obtain ⟨b, u⟩ := d
    have hb : b ≠ a := hn (b, u) (by simp)
    rw [List.pairwise_cons] at hs
    simp only [Memory.insert]
    split
    case isTrue hlt =>
      refine List.pairwise_cons.2 ⟨?_, List.pairwise_cons.2 hs⟩
      intro c hc
      rcases List.mem_cons.1 hc with rfl | hc
      · exact hlt
      · exact Nat.lt_trans hlt (hs.1 c hc)
    case isFalse hge =>
      refine List.pairwise_cons.2 ⟨?_, ih hs.2 fun c hc => hn c (by simp [hc])⟩
      intro c hc
      rcases Memory.mem_insert hc with rfl | hc
      · show b < a
        omega
      · exact hs.1 c hc

/-- A cell of memory after a write is the cell written, when it differs from its reset value, or one
that was listed before. -/
theorem Memory.mem_write {m : Memory} {a : Nat} {w : Byte} {c : Host.Cell} (h : c ∈ m.write a w) :
    (c = (a, w) ∧ w ≠ Memory.resetByte a) ∨ c ∈ m := by
  unfold Memory.write at h
  simp only at h
  split at h
  · exact .inr (List.mem_filter.1 h).1
  case isFalse hw =>
    rcases Memory.mem_insert h with h | h
    · exact .inl ⟨h, hw⟩
    · exact .inr (List.mem_filter.1 h).1

/-- A write keeps the canonical form. -/
theorem Memory.wf_write {m : Memory} (h : m.wf) (a : Nat) (w : Byte) : (m.write a w).wf := by
  refine ⟨?_, ?_⟩
  · unfold Memory.write
    simp only
    have hf : (m.filter fun c => c.1 != a).Pairwise fun c d => c.1 < d.1 := h.1.filter _
    split
    · exact hf
    · refine Memory.sorted_insert _ _ _ hf ?_
      intro c hc
      simpa using (List.mem_filter.1 hc).2
  · intro c hc
    rcases Memory.mem_write hc with ⟨rfl, hw⟩ | hc
    · exact hw
    · exact h.2 c hc

/-- Several writes keep the canonical form. -/
theorem Memory.wf_writeBytes {m : Memory} (h : m.wf) (a : Nat) (ws : List Byte) :
    (m.writeBytes a ws).wf := by
  induction ws generalizing m a with
  | nil => exact h
  | cons w ws ih => exact ih (Memory.wf_write h a w) (a + 1)

/-- Writes between the font and the end of memory keep the listed addresses there. -/
theorem Memory.inRange_writeBytes {m : Memory} (h : m.inRange) (a : Nat) (ws : List Byte)
    (hlo : ws = [] ∨ config.fontSize ≤ a) (hhi : ws = [] ∨ a + ws.length ≤ config.memSize) :
    (m.writeBytes a ws).inRange := by
  induction ws generalizing m a with
  | nil => exact h
  | cons w ws ih =>
    have hlo' : config.fontSize ≤ a := by simpa using hlo
    have hhi' : a + (ws.length + 1) ≤ config.memSize := by simpa using hhi
    refine ih ?_ (a + 1) (.inr (by omega)) (.inr (by omega))
    intro c hc
    rcases Memory.mem_write hc with ⟨rfl, -⟩ | hc
    · exact ⟨hlo', by show a < _; omega⟩
    · exact h c hc

/-- An address no listed cell has reads as at reset. -/
theorem Memory.read_unlisted (m : Memory) (a : Nat) (h : ∀ c ∈ m, c.1 ≠ a) :
    m.read a = Memory.resetByte a := by
  induction m with
  | nil => rfl
  | cons c rest ih =>
    obtain ⟨b, w⟩ := c
    rw [Memory.read, if_neg (h (b, w) (by simp)), ih fun c hc => h c (by simp [hc])]

/-- Reset memory is in canonical form. -/
theorem Memory.wf_reset : State.reset.mem.wf := by
  exact ⟨List.Pairwise.nil, by simp [State.reset]⟩

end Sys2Proof.Machine
end

