-- ==== Sys2Proof/Laws/PerInstr.lean ====
section
/-! SUPPORT. Statements made per instruction. `MatchesRow`: the encoder's word of every instruction lies
in that instruction's own row of the opcode map (30_encoding.md R63, columns "mask" and "match"). -/

namespace Sys2Proof.Laws.MatchesRow

/-- The word the encoder writes is covered by the instruction's row. -/
def Statement (i : Instr) : Prop := i.row.covers (encode i) = true

theorem cls : Statement .cls := rfl

theorem ret : Statement .ret := rfl

theorem sys (nnn : Addr12) : Statement (.sys nnn) := by
  simp [Statement, OpRow.covers, Instr.row, encode, and_F000]; rfl

theorem jp (nnn : Addr12) : Statement (.jp nnn) := by
  simp [Statement, OpRow.covers, Instr.row, encode, and_F000]; rfl

theorem call (nnn : Addr12) : Statement (.call nnn) := by
  simp [Statement, OpRow.covers, Instr.row, encode, and_F000]; rfl

theorem ldI (nnn : Addr12) : Statement (.ldI nnn) := by
  simp [Statement, OpRow.covers, Instr.row, encode, and_F000]; rfl

theorem jpV0 (nnn : Addr12) : Statement (.jpV0 nnn) := by
  simp [Statement, OpRow.covers, Instr.row, encode, and_F000]; rfl

theorem seImm (x : Reg) (kk : Byte) : Statement (.seImm x kk) := by
  simp [Statement, OpRow.covers, Instr.row, encode, and_F000]; rfl

theorem sneImm (x : Reg) (kk : Byte) : Statement (.sneImm x kk) := by
  simp [Statement, OpRow.covers, Instr.row, encode, and_F000]; rfl

theorem ldImm (x : Reg) (kk : Byte) : Statement (.ldImm x kk) := by
  simp [Statement, OpRow.covers, Instr.row, encode, and_F000]; rfl

theorem addImm (x : Reg) (kk : Byte) : Statement (.addImm x kk) := by
  simp [Statement, OpRow.covers, Instr.row, encode, and_F000]; rfl

theorem rnd (x : Reg) (kk : Byte) : Statement (.rnd x kk) := by
  simp [Statement, OpRow.covers, Instr.row, encode, and_F000]; rfl

theorem drw (x : Reg) (y : Reg) (n : Fin 16) : Statement (.drw x y n) := by
  simp [Statement, OpRow.covers, Instr.row, encode, and_F000]; rfl

theorem seReg (x : Reg) (y : Reg) : Statement (.seReg x y) := by
  simp [Statement, OpRow.covers, Instr.row, encode, and_F00F]; rfl

theorem ldReg (x : Reg) (y : Reg) : Statement (.ldReg x y) := by
  simp [Statement, OpRow.covers, Instr.row, encode, and_F00F]; rfl

theorem orReg (x : Reg) (y : Reg) : Statement (.orReg x y) := by
  simp [Statement, OpRow.covers, Instr.row, encode, and_F00F]; rfl

theorem andReg (x : Reg) (y : Reg) : Statement (.andReg x y) := by
  simp [Statement, OpRow.covers, Instr.row, encode, and_F00F]; rfl

theorem xorReg (x : Reg) (y : Reg) : Statement (.xorReg x y) := by
  simp [Statement, OpRow.covers, Instr.row, encode, and_F00F]; rfl

theorem addReg (x : Reg) (y : Reg) : Statement (.addReg x y) := by
  simp [Statement, OpRow.covers, Instr.row, encode, and_F00F]; rfl

theorem subReg (x : Reg) (y : Reg) : Statement (.subReg x y) := by
  simp [Statement, OpRow.covers, Instr.row, encode, and_F00F]; rfl

theorem shr (x : Reg) (y : Reg) : Statement (.shr x y) := by
  simp [Statement, OpRow.covers, Instr.row, encode, and_F00F]; rfl

theorem subnReg (x : Reg) (y : Reg) : Statement (.subnReg x y) := by
  simp [Statement, OpRow.covers, Instr.row, encode, and_F00F]; rfl

theorem shl (x : Reg) (y : Reg) : Statement (.shl x y) := by
  simp [Statement, OpRow.covers, Instr.row, encode, and_F00F]; rfl

theorem sneReg (x : Reg) (y : Reg) : Statement (.sneReg x y) := by
  simp [Statement, OpRow.covers, Instr.row, encode, and_F00F]; rfl

theorem skp (x : Reg) : Statement (.skp x) := by
  simp [Statement, OpRow.covers, Instr.row, encode, and_F0FF]; rfl

theorem sknp (x : Reg) : Statement (.sknp x) := by
  simp [Statement, OpRow.covers, Instr.row, encode, and_F0FF]; rfl

theorem ldVxDt (x : Reg) : Statement (.ldVxDt x) := by
  simp [Statement, OpRow.covers, Instr.row, encode, and_F0FF]; rfl

theorem ldVxK (x : Reg) : Statement (.ldVxK x) := by
  simp [Statement, OpRow.covers, Instr.row, encode, and_F0FF]; rfl

theorem ldDtVx (x : Reg) : Statement (.ldDtVx x) := by
  simp [Statement, OpRow.covers, Instr.row, encode, and_F0FF]; rfl

theorem ldStVx (x : Reg) : Statement (.ldStVx x) := by
  simp [Statement, OpRow.covers, Instr.row, encode, and_F0FF]; rfl

theorem addI (x : Reg) : Statement (.addI x) := by
  simp [Statement, OpRow.covers, Instr.row, encode, and_F0FF]; rfl

theorem ldF (x : Reg) : Statement (.ldF x) := by
  simp [Statement, OpRow.covers, Instr.row, encode, and_F0FF]; rfl

theorem ldB (x : Reg) : Statement (.ldB x) := by
  simp [Statement, OpRow.covers, Instr.row, encode, and_F0FF]; rfl

theorem stRegs (x : Reg) : Statement (.stRegs x) := by
  simp [Statement, OpRow.covers, Instr.row, encode, and_F0FF]; rfl

theorem ldRegs (x : Reg) : Statement (.ldRegs x) := by
  simp [Statement, OpRow.covers, Instr.row, encode, and_F0FF]; rfl

end Sys2Proof.Laws.MatchesRow
end

