-- ==== Sys2Proof/Tests/Slice0.lean ====
section
/-! SUPPORT. Checks of the model's author. Expected results are those of spec/95_test_vectors.md (the row is
named) or of the encodings of spec/30_encoding.md, written out by hand. The `witness_` theorems show, for
each statement with hypotheses, states and operands that meet them, at the ends of their ranges. -/

namespace Sys2Proof.Tests

open Sys2Proof.Machine Sys2Proof.Claims

/-! ### Helpers -/

/-- The reset state with `pc` = 0x300, the start of the vectors' Part 2. -/
def base : State := State.reset.setPc 0x300

/-- A state with some registers set. -/
def regs (l : List (Reg × Byte)) (s : State) : State := l.foldl (fun s p => s.setReg p.1 p.2) s

/-- A state with bytes put in memory. -/
def bytes (a : Nat) (ws : List Byte) (s : State) : State := s.setMem (s.mem.writeBytes a ws)

/-- A state with some pixels set. -/
def pixels (l : List (Column × Row)) (s : State) : State :=
  s.setFb (l.foldl (fun fb p => FrameBuffer.setPixel fb p.1 p.2 true) s.fb)

/-- How many pixels are set. -/
def lit (s : State) : Nat := ((s.fb.toList.map fun r => r.toList.count true)).sum

/-- The outcome is a next state that passes a check. -/
def gives (o : Host.Outcome State Fault Refusal) (check : State → Bool) : Bool :=
  match o with
  | .next t => check t
  | _ => false

/-- The outcome is this error. -/
def stops (o : Host.Outcome State Fault Refusal) (f : Fault) : Bool :=
  match o with
  | .fault g => decide (g = f)
  | _ => false

/-- The outcome is some next state. -/
def goes (o : Host.Outcome State Fault Refusal) : Bool := gives o fun _ => true

/-! ### Well-formedness -/

/-- R64: the two words of class 0 that are other rows are no `SYS`. -/
theorem test_wf_refuses_sys_cls_and_ret :
    (Instr.sys 0x0E0).wf = false ∧ (Instr.sys 0x0EE).wf = false ∧
      sysOperandOk 0x0E0 = false ∧ sysOperandOk 0x0EE = false := by decide

/-- X1, X3, X5, X6: their neighbours are. -/
theorem test_wf_accepts_other_sys :
    (Instr.sys 0x000).wf = true ∧ (Instr.sys 0x0E1).wf = true ∧ (Instr.sys 0x0EF).wf = true ∧
      (Instr.sys 0xFFF).wf = true := by decide

/-! ### Decoding, words written out from the encodings of R63 (X1 to X18) -/

theorem test_decode_class0 :
    decode 0b0000000000000000 = some (.sys 0x000) ∧ decode 0b0000000011100000 = some .cls ∧
    decode 0b0000000011100001 = some (.sys 0x0E1) ∧ decode 0b0000000011101110 = some .ret ∧
    decode 0b0000000011101111 = some (.sys 0x0EF) ∧ decode 0b0000111111111111 = some (.sys 0xFFF) := by
  decide

theorem test_decode_control :
    decode 0b0001101010111100 = some (.jp 0xABC) ∧ decode 0b0010010000000000 = some (.call 0x400) ∧
    decode 0b0011001100101010 = some (.seImm 3 0x2A) ∧
    decode 0b0100001100101010 = some (.sneImm 3 0x2A) ∧
    decode 0b0101101010110000 = some (.seReg 10 11) ∧
    decode 0b1001101010110000 = some (.sneReg 10 11) ∧
    decode 0b1011111111111111 = some (.jpV0 0xFFF) := by decide

theorem test_decode_loads_and_adds :
    decode 0b0110000000000101 = some (.ldImm 0 5) ∧ decode 0b0111000000001010 = some (.addImm 0 10) ∧
    decode 0b1010001100000000 = some (.ldI 0x300) ∧ decode 0b1100000100001111 = some (.rnd 1 0x0F) ∧
    decode 0b1101000011110101 = some (.drw 0 15 5) ∧ decode 0b1101000000000000 = some (.drw 0 0 0) := by
  decide

theorem test_decode_class8 :
    decode 0b1000000100100000 = some (.ldReg 1 2) ∧ decode 0b1000000100100001 = some (.orReg 1 2) ∧
    decode 0b1000000100100010 = some (.andReg 1 2) ∧ decode 0b1000000100100011 = some (.xorReg 1 2) ∧
    decode 0b1000000100100100 = some (.addReg 1 2) ∧ decode 0b1000000100100101 = some (.subReg 1 2) ∧
    decode 0b1000000100100110 = some (.shr 1 2) ∧ decode 0b1000101010110111 = some (.subnReg 10 11) ∧
    decode 0b1000101010111110 = some (.shl 10 11) := by decide

theorem test_decode_classes_E_and_F :
    decode 0b1110111110011110 = some (.skp 15) ∧ decode 0b1110000010100001 = some (.sknp 0) ∧
    decode 0b1111001100000111 = some (.ldVxDt 3) ∧ decode 0b1111000100001010 = some (.ldVxK 1) ∧
    decode 0b1111001100010101 = some (.ldDtVx 3) ∧ decode 0b1111010000011000 = some (.ldStVx 4) ∧
    decode 0b1111001000011110 = some (.addI 2) ∧ decode 0b1111000000101001 = some (.ldF 0) ∧
    decode 0b1111000000110011 = some (.ldB 0) ∧ decode 0b1111000101010101 = some (.stRegs 1) ∧
    decode 0b1111111101100101 = some (.ldRegs 15) := by decide

/-- X8, X10, X12, X14, X16, X18. -/
theorem test_decode_refuses_illegal_words :
    (([0x5AB1, 0x5ABF, 0x8AB8, 0x8AB9, 0x8ABA, 0x8ABB, 0x8ABC, 0x8ABD, 0x8ABF, 0x9AB1, 0x9ABF] ++
      [0xE09F, 0xE0A0, 0xE000, 0xE0FF, 0xF000, 0xF001, 0xF075, 0xF085, 0xF0FF, 0xF056, 0xF064, 0xFFFF] :
      List Word).all fun op => (decode op).isNone) = true := by decide

/-- S10 and R60: big-endian, one instruction and the bytes after it; fewer bytes are none. -/
theorem test_decodeBytes :
    decodeBytes [0x60, 0x05, 0x70] = .ok (.ldImm 0 5, [0x70]) ∧
    decodeBytes [0x60] = .error .truncated ∧
    decodeBytes [0xFF, 0xFF] = .error (.unimplementedOpcode 0xFFFF) := by
  exact ⟨rfl, rfl, rfl⟩

theorem test_table_word_runs_at_reset :
    decodeTableWord 16 0x6005 = some (.ldImm 0 5) ∧
    gives (step (State.reset.withFetchWord 16 0x6005)) (fun t => t.reg 0 == 5 && t.pc == 0x202) = true := by
  decide

/-- R68: mnemonics, operand order and raw words. The form of the numbers is the model's (log 36). -/
theorem test_listing :
    (Instr.drw 0 1 5).listing = "DRW V0, V1, 0x5" ∧ (Instr.stRegs 15).listing = "LD [I], VF" ∧
    wordListing 0x8106 = "SHR V1" ∧ wordListing 0xFFFF = "DW 0xFFFF" := by decide +kernel

/-! ### Control flow (T rows) -/

/-- T1, T4. -/
theorem test_jp :
    gives (executeWord 0x1ABC base) (fun t => t.pc == 0xABC) = true ∧
    gives (executeWord 0x1FFF base) (fun t => stops (step t) (.addressOutOfRange 0xFFF .fetch)) = true := by
  decide

/-- T7, T8. -/
theorem test_jp_v0 :
    gives (executeWord 0xBFFF (regs [(0, 0xFF)] base)) (fun t => t.pc == 0x10FE &&
      stops (step t) (.addressOutOfRange 0x10FE .fetch)) = true ∧
    gives (executeWord 0xB300 (regs [(0, 1), (3, 0x40)] base)) (fun t => t.pc == 0x301) = true := by decide

/-- T9, T13. -/
theorem test_call :
    gives (executeWord 0x2400 base) (fun t => t.stack == [0x302] && t.pc == 0x400) = true ∧
    stops (executeWord 0x2600
      { base with stack := [0x302, 0x202], stackDepth := some 2 }) (.stackOverflow 0x300) = true := by decide

/-- T10, T12. -/
theorem test_ret :
    gives (executeWord 0x00EE ((base.setPc 0x400).push 0x302)) (fun t => t.stack == [] && t.pc == 0x302) =
      true ∧
    stops (executeWord 0x00EE base) (.stackUnderflow 0x300) = true := by decide

/-- T15 to T18. -/
theorem test_se_sne_imm :
    gives (executeWord 0x332A (regs [(3, 0x2A)] base)) (fun t => t.pc == 0x304) = true ∧
    gives (executeWord 0x332A (regs [(3, 0x2B)] base)) (fun t => t.pc == 0x302) = true ∧
    gives (executeWord 0x432A (regs [(3, 0x2A)] base)) (fun t => t.pc == 0x302) = true ∧
    gives (executeWord 0x432A (regs [(3, 0x2B)] base)) (fun t => t.pc == 0x304) = true := by decide

/-- T19, T20, T22, T23. -/
theorem test_se_sne_reg :
    gives (executeWord 0x5120 (regs [(1, 7), (2, 7)] base)) (fun t => t.pc == 0x304) = true ∧
    gives (executeWord 0x5120 (regs [(1, 7), (2, 8)] base)) (fun t => t.pc == 0x302) = true ∧
    gives (executeWord 0x9120 (regs [(1, 7), (2, 8)] base)) (fun t => t.pc == 0x304) = true ∧
    gives (executeWord 0x9330 base) (fun t => t.pc == 0x302) = true := by decide

/-- R175. -/
theorem test_sys : gives (executeWord 0x0ABC base) (fun t => decide (t = base.setPc 0x302)) = true := by
  decide

/-! ### Register load, arithmetic, logic, random (A rows) -/

/-- A1. -/
theorem test_ld_imm : gives (executeWord 0x6AFF base) (fun t => t.reg 10 == 0xFF && t.pc == 0x302) = true := by
  decide

/-- A2, A4. -/
theorem test_add_imm :
    gives (executeWord 0x7A01 (regs [(10, 0xFF), (15, 7)] base)) (fun t => t.reg 10 == 0 && t.reg 15 == 7) =
      true ∧
    gives (executeWord 0x7F03 (regs [(15, 0xFE)] base)) (fun t => t.reg 15 == 1) = true := by decide

/-- A5. -/
theorem test_ld_reg :
    gives (executeWord 0x8120 (regs [(2, 0x7C)] base)) (fun t => t.reg 1 == 0x7C && t.reg 2 == 0x7C) =
      true := by decide

/-- A6, A7, A8. -/
theorem test_logic :
    gives (executeWord 0x8121 (regs [(1, 0x0F), (2, 0xF0), (15, 1)] base))
      (fun t => t.reg 1 == 0xFF && t.reg 15 == 1) = true ∧
    gives (executeWord 0x8122 (regs [(1, 0x3C), (2, 0x0F), (15, 1)] base))
      (fun t => t.reg 1 == 0x0C && t.reg 15 == 1) = true ∧
    gives (executeWord 0x8123 (regs [(1, 0xFF), (2, 0x0F), (15, 1)] base))
      (fun t => t.reg 1 == 0xF0 && t.reg 15 == 1) = true := by decide

/-- A10, A11. -/
theorem test_add_reg :
    gives (executeWord 0x8124 (regs [(1, 0xC8), (2, 0x64)] base))
      (fun t => t.reg 1 == 0x2C && t.reg 15 == 1) = true ∧
    gives (executeWord 0x8124 (regs [(1, 0x80), (2, 0x7F), (15, 1)] base))
      (fun t => t.reg 1 == 0xFF && t.reg 15 == 0) = true := by decide

/-- A16, A18: `VF` as destination and as source. -/
theorem test_add_reg_vf :
    gives (executeWord 0x8F14 (regs [(15, 0xFF), (1, 2)] base)) (fun t => t.reg 15 == 1) = true ∧
    gives (executeWord 0x81F4 (regs [(1, 0xFF), (15, 1)] base))
      (fun t => t.reg 1 == 0 && t.reg 15 == 1) = true := by decide

/-- A20, A22. -/
theorem test_sub_reg :
    gives (executeWord 0x8125 (regs [(1, 5), (2, 10)] base)) (fun t => t.reg 1 == 0xFB && t.reg 15 == 0) =
      true ∧
    gives (executeWord 0x8125 (regs [(1, 0x33), (2, 0x33)] base))
      (fun t => t.reg 1 == 0 && t.reg 15 == 1) = true := by decide

/-- A29, A30. -/
theorem test_shr :
    gives (executeWord 0x8126 (regs [(1, 5), (2, 0xF0)] base))
      (fun t => t.reg 1 == 2 && t.reg 15 == 1 && t.reg 2 == 0xF0) = true ∧
    gives (executeWord 0x8F06 (regs [(15, 3)] base)) (fun t => t.reg 15 == 1) = true := by decide

/-- A31, A32. -/
theorem test_subn_reg :
    gives (executeWord 0x8127 (regs [(1, 5), (2, 10)] base)) (fun t => t.reg 1 == 5 && t.reg 15 == 1) =
      true ∧
    gives (executeWord 0x8127 (regs [(1, 10), (2, 5)] base))
      (fun t => t.reg 1 == 0xFB && t.reg 15 == 0) = true := by decide

/-- A34, A37. -/
theorem test_shl :
    gives (executeWord 0x810E (regs [(1, 0x81)] base)) (fun t => t.reg 1 == 2 && t.reg 15 == 1) = true ∧
    gives (executeWord 0x8F0E (regs [(15, 0x40)] base)) (fun t => t.reg 15 == 0) = true := by decide

/-- A38: the byte lined up is used and used up. -/
theorem test_rnd_takes_the_byte_lined_up :
    gives (executeWord 0xC10F { base with randIn := [0xB7, 0x5A] })
      (fun t => t.reg 1 == 0x07 && t.randIn == [0x5A] && t.draws == 0) = true := by decide

/-- A40: with no byte lined up, and a mask of 0. The free byte has no value to compute, so this is no
case for `decide`. -/
theorem test_rnd_masks_a_free_byte :
    ∃ t, executeWord 0xC100 base = .next t ∧ t.reg 1 = 0 ∧ t.draws = 1 := by
  refine ⟨_, rfl, ?_, rfl⟩
  show (State.setReg _ 1 (_ &&& 0)).reg 1 = 0
  simp

/-! ### Index, timers, memory transfer, key tests (M rows) -/

/-- M2. -/
theorem test_ld_i : gives (executeWord 0xAFFF base) (fun t => t.i == 0x0FFF && t.pc == 0x302) = true := by
  decide

/-- M4, M5. -/
theorem test_add_i :
    gives (executeWord 0xF21E ((regs [(2, 2)] base).setI 0xFFFF)) (fun t => t.i == 1 && t.reg 15 == 0) =
      true ∧
    gives (executeWord 0xF21E ((regs [(2, 1)] base).setI 0x0FFF))
      (fun t => t.i == 0x1000 && t.reg 15 == 0) = true := by decide

/-- M6, M7, M8. -/
theorem test_timer_moves :
    gives (executeWord 0xF307 (base.setDt 0x3C)) (fun t => t.reg 3 == 0x3C && t.dt == 0x3C) = true ∧
    gives (executeWord 0xF315 (regs [(3, 0x3C)] base)) (fun t => t.dt == 0x3C && t.st == 0) = true ∧
    gives (executeWord 0xF418 (regs [(4, 5)] base)) (fun t => t.st == 5 && t.dt == 0) = true := by decide

/-- M10, M11. -/
theorem test_ld_f :
    gives (executeWord 0xF029 (regs [(0, 0x0F)] base)) (fun t => t.i == 0x4B) = true ∧
    stops (executeWord 0xF029 (regs [(0, 0x10)] base)) (.invalidFontDigit 0x10 0x300) = true := by decide

/-- M13, M18. -/
theorem test_ld_b :
    gives (executeWord 0xF033 ((regs [(0, 0xFE)] base).setI 0x300))
      (fun t => t.mem.readBytes 0x2FF 5 == [0, 2, 5, 4, 0] && t.i == 0x300) = true ∧
    gives (executeWord 0xF033 ((regs [(0, 0x7B)] base).setI 0xFFC))
      (fun t => t.mem.readBytes 0xFFC 3 == [1, 2, 3]) = true := by decide

/-- M19, M20. -/
theorem test_ld_b_errors :
    stops (executeWord 0xF033 (base.setI 0xFFD)) (.addressOutOfRange 0xFFF .write) = true ∧
    stops (executeWord 0xF033 (base.setI 78)) (.writeProtected 78) = true := by decide

/-- M22, M23. -/
theorem test_st_regs :
    gives (executeWord 0xF155 ((regs [(0, 0x11), (1, 0x22), (2, 0x33)] base).setI 0x400))
      (fun t => t.mem.readBytes 0x400 3 == [0x11, 0x22, 0] && t.i == 0x400) = true ∧
    gives (executeWord 0xFF55 ((regs ((List.finRange 16).map fun r => (r, BitVec.ofNat 8 r.val)) base).setI
        0x400))
      (fun t => t.mem.readBytes 0x400 16 == (List.range 16).map (BitVec.ofNat 8)) = true := by decide

/-- M25, M26. -/
theorem test_st_regs_errors :
    stops (executeWord 0xF155 (base.setI 79)) (.writeProtected 79) = true ∧
    stops (executeWord 0xF155 (base.setI 0xFFE)) (.addressOutOfRange 0xFFF .write) = true := by decide

/-- M27, M28. -/
theorem test_ld_regs :
    gives (executeWord 0xF265 ((regs [(3, 0x99)] (bytes 0x300 [2, 5, 4, 6] base)).setI 0x300))
      (fun t => t.v.toList.take 4 == [2, 5, 4, 0x99] && t.i == 0x300) = true ∧
    gives (executeWord 0xF465 base) (fun t => t.v.toList.take 6 == [0xF0, 0x90, 0x90, 0x90, 0xF0, 0]) =
      true := by decide

/-- M29, M30. -/
theorem test_ld_regs_errors :
    stops (executeWord 0xF165 (base.setI 0xFFE)) (.addressOutOfRange 0xFFF .read) = true ∧
    stops (executeWord 0xF065 (base.setI 0xFFFF)) (.addressOutOfRange 0xFFFF .read) = true := by decide

/-- M32 to M35. -/
theorem test_key_skips :
    gives (executeWord 0xE19E ((regs [(1, 7)] base).setKey 7 true)) (fun t => t.pc == 0x304) = true ∧
    gives (executeWord 0xE19E (regs [(1, 7)] base)) (fun t => t.pc == 0x302) = true ∧
    gives (executeWord 0xE1A1 (regs [(1, 7)] base)) (fun t => t.pc == 0x304) = true ∧
    gives (executeWord 0xE1A1 ((regs [(1, 7)] base).setKey 7 true)) (fun t => t.pc == 0x302) = true := by
  decide

/-- M36, M37. -/
theorem test_key_skip_errors :
    stops (executeWord 0xE19E (regs [(1, 0x10)] base)) (.invalidKeyIndex 0x10 0x300) = true ∧
    stops (executeWord 0xE1A1 (regs [(1, 0x17)] base)) (.invalidKeyIndex 0x17 0x300) = true := by decide

/-! ### Key wait (W rows) and S14, S15 -/

/-- W1, W7. -/
theorem test_ld_vx_k :
    gives (executeWord 0xF10A base) (fun t => t.wait == some 1 && t.pc == 0x302 && t.reg 1 == 0) = true ∧
    gives (executeWord 0xF10A (base.setKey 4 true)) (fun t => t.wait == some 1 && t.reg 1 == 0) = true := by
  decide

/-- W3, W5, W9. -/
theorem test_wait :
    gives (perform (.execute 0xFFFF) (base.setWait (some 1)))
      (fun t => decide (t = base.setWait (some 1))) = true ∧
    gives (perform (.keyDown 7) (base.setWait (some 1)))
      (fun t => t.wait == none && t.reg 1 == 7 && t.key 7 && t.pc == 0x300) = true ∧
    gives (perform (.keyDown 0) ((regs [(1, 9)] base).setWait (some 1)))
      (fun t => t.wait == none && t.reg 1 == 0 && t.key 0) = true := by decide

/-- S14, S15. -/
theorem test_gate_before_decode :
    gives (executeWord 0x6A55 (base.setWait (some 2))) (fun t => t.reg 10 == 0 && t.pc == 0x300) = true ∧
    stops (executeWord 0xFFFF base) (.unimplementedOpcode 0xFFFF 0x300) = true := by decide

/-! ### Display (G rows) -/

/-- G14. -/
theorem test_cls :
    gives (executeWord 0x00E0 (regs [(15, 1)] (pixels [(0, 0), (63, 31)] base)))
      (fun t => lit t == 0 && t.reg 15 == 1) = true := by decide

/-- G1, G2. -/
theorem test_drw_glyph_zero_twice :
    gives (executeWord 0xD015 base) (fun t =>
      lit t == 14 && FrameBuffer.pixel t.fb 0 1 && FrameBuffer.pixel t.fb 3 1 && t.reg 15 == 0 &&
      gives (executeWord 0xD015 t) fun u => lit u == 0 && u.reg 15 == 1) = true := by decide

/-- G4. -/
theorem test_drw_wraps_each_pixel :
    gives (executeWord 0xD012 ((regs [(0, 63), (1, 31)] (bytes 0x300 [0xC0, 0xC0] base)).setI 0x300))
      (fun t => FrameBuffer.pixel t.fb 63 31 && FrameBuffer.pixel t.fb 0 31 &&
        FrameBuffer.pixel t.fb 63 0 && FrameBuffer.pixel t.fb 0 0 && lit t == 4 && t.reg 15 == 0) =
    true := by decide

/-- H11, S10: fetch is big-endian; past the last word it raises. -/
theorem test_fetch :
    fetch (bytes 0x300 [0x60, 0x05] base) = .ok 0x6005 ∧
    fetch (base.setPc 0xFFE) = .error (.addressOutOfRange 0xFFF .fetch) := by
  exact ⟨rfl, rfl⟩

/-! ### Host commands (H rows) -/

/-- H1, H2, H3. -/
theorem test_tick :
    gives (perform .tick (base.setDt 2)) (fun t => t.dt == 1 && t.st == 0) = true ∧
    gives (perform .tick base) (fun t => t.dt == 0 && t.st == 0) = true ∧
    gives (perform .tick ((base.setDt 0xFF).setSt 1)) (fun t => t.dt == 0xFE && t.st == 0) = true := by decide

/-- H5, H10. -/
theorem test_key_up_and_load :
    gives (perform (.keyUp 5) (base.setKey 5 true)) (fun t => !t.key 5) = true ∧
    gives (perform (.load [0x11]) (bytes 0x200 [0xAA, 0xBB, 0xCC] base))
      (fun t => t.mem.readBytes 0x200 3 == [0x11, 0xBB, 0xCC]) = true := by decide

/-- A byte back at its reset value leaves the list: equal memories are equal lists (log 7). -/
theorem test_memory_is_canonical :
    bytes 0x300 [0, 0] (bytes 0x300 [1, 2] base) = base ∧
    (bytes 0x300 [1] (bytes 0x302 [3] base)).mem = [(0x300, 1), (0x302, 3)] := by decide

/-! ### Witnesses: states and operands that meet the hypotheses of the statements -/

theorem witness_DecodeOfEncode : (Instr.shr 5 15).wf = true ∧ (Instr.sys 0xFFF).wf = true ∧
    (Instr.drw 15 15 15).wf = true := by decide

theorem witness_EncodeOfDecode : decode 0x8AB6 = some (.shr 10 11) ∧ decode 0xFF65 = some (.ldRegs 15) := by
  decide

/-- Both clauses, at the words next to the exact rows. -/
theorem witness_DecodeSelectsTheCoveringRow :
    decode 0x00E0 = some .cls ∧ (Instr.sys 5).row.covers 0x00E1 = true ∧
      (0x00E1 : Word) ≠ 0x00E0 ∧ (0x00E1 : Word) ≠ 0x00EE ∧ Instr.cls.row.covers 0x00E0 = true ∧
      Instr.cls.row ≠ (Instr.sys 0).row := by decide

/-- The last address with a whole word, both forms of `pending`. -/
theorem witness_StepRunsTheDecodedInstruction :
    (bytes 4093 [0x60, 0x05] (base.setPc 4093)).wait = none ∧
    (bytes 4093 [0x60, 0x05] (base.setPc 4093)).pc.toNat + 1 < 4095 ∧
    (bytes 4093 [0x60, 0x05] (base.setPc 4093)).pending = [] ∧
    decode (BitVec.ofNat 16 (((bytes 4093 [0x60, 0x05] base).byteAt 4093).toNat * 256 +
      ((bytes 4093 [0x60, 0x05] base).byteAt 4094).toNat)) = some (.ldImm 0 5) ∧
    gives (step (bytes 4093 [0x60, 0x05] (base.setPc 4093))) (fun t => t.reg 0 == 5) = true ∧
    gives (step { bytes 4093 [0x60, 0x05] (base.setPc 4093) with pending := [.step, .tick] })
      (fun t => t.reg 0 == 5 && t.pending == [.tick]) = true := by decide

/-- Every clause, `pc` at 4093, 4094 and 4095. -/
theorem witness_StepChecksGateThenFetchThenDecode :
    (base.setWait (some 15)).wait = some 15 ∧ base.pending = [] ∧ base.wait = none ∧
    stops (step (base.setPc 4095)) (.addressOutOfRange 4095 .fetch) = true ∧
    stops (step (base.setPc 4094)) (.addressOutOfRange 4095 .fetch) = true ∧
    stops (step (bytes 4093 [0xFF, 0xFF] (base.setPc 4093))) (.unimplementedOpcode 0xFFFF 4093) = true ∧
    goes (step (base.setPc 4093)) = true := by decide

/-- A waiting state, alone and with commands lined up. -/
theorem witness_WaitingBlockChangesNothing :
    (base.setWait (some 0)).wait = some 0 ∧ (base.setWait (some 0)).pending = [] ∧
    gives (step { base.setWait (some 0) with pending := [.step] }) (fun t => t.pending == []) = true ∧
    gives (step { base.setWait (some 0) with pending := [.execute 0xFFFF, .tick] })
      (fun t => t.pending == [.tick] && t.wait == some 0) = true := by decide

/-- Each clause: waiting, an illegal word, a legal word. -/
theorem witness_ExecuteRunsTheGivenWord :
    goes (step { base.setWait (some 3) with pending := [.execute 0x6A55] }) = true ∧
    decode 0x8008 = none ∧
    stops (step { base with pending := [.execute 0x8008] }) (.unimplementedOpcode 0x8008 0x300) = true ∧
    decode 0x6A55 = some (.ldImm 10 0x55) ∧
    gives (step { base with pending := [.execute 0x6A55] }) (fun t => t.reg 10 == 0x55) = true := by decide

/-- Both clauses of `PcAfterEveryInstruction`. -/
theorem witness_PcAfterEveryInstruction :
    goes (exec (.call 0x400) base) = true ∧ goes (exec (.skp 0) base) = true ∧
    goes (executeWord 0x1300 (base.setWait (some 0))) = true := by decide

theorem witness_EveryInstructionWritesOnlyItsParts :
    goes (exec (.ldB 0) (base.setI 80)) = true ∧ goes (exec (.drw 0 1 15) base) = true ∧
    goes (exec (.ldRegs 7) base) = true := by decide

/-- A flag writer, and an instruction that is none with another destination. -/
theorem witness_OnlyFlagWritersTouchVF :
    goes (exec (.subReg 1 2) base) = true ∧ writesFlag (.subReg 1 2) = true ∧
    goes (exec (.ldRegs 14) base) = true ∧ writesFlag (.ldRegs 14) = false ∧
    VF ∉ destRegs (.ldRegs 14) ∧ VF ∈ destRegs (.ldRegs 15) := by decide

/-- Every cause that an instruction raises. -/
theorem witness_InstructionsRaiseOnlyTheirCauses :
    stops (exec .ret base) (.stackUnderflow 0x300) = true ∧
    stops (exec (.ldF 0) (regs [(0, 16)] base)) (.invalidFontDigit 16 0x300) = true ∧
    stops (exec (.drw 0 0 2) (base.setI 4094)) (.addressOutOfRange 4095 .read) = true ∧
    stops (exec (.ldRegs 0) (base.setI 4095)) (.addressOutOfRange 4095 .read) = true ∧
    stops (exec (.ldB 0) (base.setI 4093)) (.addressOutOfRange 4095 .write) = true ∧
    stops (exec (.stRegs 1) (base.setI 4094)) (.addressOutOfRange 4095 .write) = true ∧
    stops (exec (.stRegs 0) (base.setI 79)) (.writeProtected 79) = true ∧
    stops (exec (.sknp 0) (regs [(0, 16)] base)) (.invalidKeyIndex 16 0x300) = true ∧
    stops (exec (.call 0) { base with stackDepth := some 0 }) (.stackOverflow 0x300) = true := by decide

/-- Each command that takes a timer down. -/
theorem witness_NoInstructionAdvancesATimer :
    goes (exec (.ldDtVx 0) base) = true ∧
    gives (perform .tick (base.setDt 1)) (fun t => t.dt.toNat < 1) = true ∧
    gives (perform .reset (base.setDt 1)) (fun t => t.dt.toNat < 1) = true ∧
    gives (perform (.execute 0xF015) (base.setDt 1)) (fun t => t.dt.toNat < 1) = true ∧
    gives (perform .step (bytes 0x300 [0xF0, 0x15] (base.setDt 1))) (fun t => t.dt.toNat < 1) = true ∧
    gives (perform (.execute 0xF018) (base.setSt 1)) (fun t => t.st.toNat < 1) = true := by
  decide

theorem witness_OnlyRndReadsRandIn :
    ({ base with randIn := [0xB7] } : State).randIn = 0xB7 :: [] ∧
    (∀ x kk, Instr.cls ≠ .rnd x kk) ∧ Command.tick ≠ .step ∧ ∀ op, Command.tick ≠ .execute op := by
  exact ⟨rfl, fun _ _ h => (by cases h), by decide, fun _ h => (by cases h)⟩

theorem witness_SoundTimerAndKeysAreHidden :
    (∀ x, Instr.cls ≠ .ldStVx x) ∧ (∀ x, Instr.ldVxK 3 ≠ .skp x) ∧ ∀ x, Instr.ldVxK 3 ≠ .sknp x := by
  exact ⟨fun _ h => (by cases h), fun _ h => (by cases h), fun _ h => (by cases h)⟩

/-- A state with memory listed, the stack at its bound, and a step from it. -/
def loaded : State :=
  { bytes 0x300 [0x60, 0x05] base with stack := [0x302, 0x202], stackDepth := some 2 }

theorem witness_StepKeepsInv : loaded.Inv ∧ goes (step loaded) = true :=
  ⟨⟨by decide, by decide, fun n h => by
    have e : n = 2 := by
      have h' : some 2 = some n := h
      injection h' with h'
      exact h'.symm
    subst e
    decide⟩, by decide⟩

/-- The ends of the font, in the state of `witness_StepKeepsInv`. -/
theorem witness_FontIsNeverChanged :
    loaded.byteAt 0 = 0xF0 ∧ loaded.byteAt 79 = 0x80 ∧ goes (step loaded) = true := by decide

/-- `pc` at the last address an instruction can be fetched from, a return address at the bound. -/
theorem witness_PcNeverPassesTheLargestTarget :
    SmallPc ((base.setPc 4093).push 0x10FE) ∧ (base.setPc 4093).pc.toNat + 1 < 4095 ∧
    goes (exec .ret ((base.setPc 4093).push 0x10FE)) = true ∧
    goes (exec (.jpV0 0xFFF) (regs [(0, 0xFF)] (base.setPc 4093))) = true := by
  refine ⟨⟨by decide, ?_⟩, by decide, by decide, by decide⟩
  intro w hw
  simp [base, State.push, State.setStack, State.setPc, State.reset] at hw
  subst hw
  decide

theorem witness_EvenTargetsKeepPcEven :
    EvenPc (base.push 0x302) ∧ EvenTarget (base.push 0x302) (.jp 0xFFE) ∧
    EvenTarget (regs [(0, 1)] base) (.jpV0 0xFFF) ∧ goes (exec (.jp 0xFFE) (base.push 0x302)) = true := by
  refine ⟨⟨by decide, ?_⟩, rfl, rfl, by decide⟩
  intro w hw
  simp [base, State.push, State.setStack, State.setPc, State.reset] at hw
  subst hw
  decide

/-- The first target that the next `STEP` cannot fetch from, for both jumps. -/
theorem witness_JpSetsPc_and_JpV0 :
    base.wait = none ∧ base.pending = [] ∧ 4094 ≤ (0xFFE : Addr12).toNat ∧
    4094 ≤ (0xFFD : Addr12).toNat + ((regs [(0, 1)] base).reg 0).toNat := by decide

/-- The stack one below its bound and at it. -/
theorem witness_CallPushesTheNextAddress :
    ({ base with stack := [0x202], stackDepth := some 2 } : State).stackDepth ≠ some [0x202].length ∧
    goes (exec (.call 0xFFF) { base with stack := [0x202], stackDepth := some 2 }) = true ∧
    stops (exec (.call 0xFFF) { base with stack := [0x302, 0x202], stackDepth := some 2 })
      (.stackOverflow 0x300) = true := by decide

theorem witness_RetPopsTheReturnAddress :
    (base.push 0x302).stack = 0x302 :: [] ∧ base.stack = [] := by decide

theorem witness_CallThenRetComesBack : goes (exec (.call 0x400) (base.push 0x202)) = true := by decide

/-- Equal and unequal, for both kinds of skip. -/
theorem witness_Skips :
    (regs [(3, 0x2A)] base).reg 3 = 0x2A ∧ (regs [(3, 0x2B)] base).reg 3 ≠ 0x2A ∧
    (regs [(1, 7), (2, 7)] base).reg 1 = (regs [(1, 7), (2, 7)] base).reg 2 ∧
    (regs [(1, 7), (2, 8)] base).reg 1 ≠ (regs [(1, 7), (2, 8)] base).reg 2 := by decide

/-- Sums of 255 and 256, and a destination that is not `VF`. -/
theorem witness_AddRegisterReportsCarry :
    ¬255 < ((regs [(1, 0x80), (2, 0x7F)] base).reg 1).toNat +
      ((regs [(1, 0x80), (2, 0x7F)] base).reg 2).toNat ∧
    255 < ((regs [(1, 0x80), (2, 0x80)] base).reg 1).toNat +
      ((regs [(1, 0x80), (2, 0x80)] base).reg 2).toNat ∧ (1 : Reg) ≠ VF := by decide

/-- Equal operands (no borrow either way) and operands one apart. -/
theorem witness_SubtractionsReportNoBorrow :
    ((regs [(1, 5), (2, 5)] base).reg 2).toNat ≤ ((regs [(1, 5), (2, 5)] base).reg 1).toNat ∧
    ¬((regs [(1, 5), (2, 6)] base).reg 2).toNat ≤ ((regs [(1, 5), (2, 6)] base).reg 1).toNat ∧
    ¬((regs [(1, 6), (2, 5)] base).reg 1).toNat ≤ ((regs [(1, 6), (2, 5)] base).reg 2).toNat := by decide

/-- The bit shifted out, 1 and 0, on both sides. -/
theorem witness_ShiftsReportTheDroppedBit :
    ((regs [(1, 1)] base).reg 1).toNat % 2 = 1 ∧ ¬((regs [(1, 2)] base).reg 1).toNat % 2 = 1 ∧
    128 ≤ ((regs [(1, 0x80)] base).reg 1).toNat ∧ ¬128 ≤ ((regs [(1, 0x7F)] base).reg 1).toNat := by decide

theorem witness_RndMasksADrawnByte :
    ({ base with randIn := [0xB7, 1] } : State).randIn = 0xB7 :: [1] ∧ base.randIn = [] := by decide

/-- The largest digit and the smallest value above it. -/
theorem witness_LdFPointsAtTheGlyph :
    ((regs [(0, 15)] base).reg 0).toNat ≤ 15 ∧ 15 < ((regs [(0, 16)] base).reg 0).toNat := by decide

/-- `I` at 79, 80, 4092 and 4093. -/
theorem witness_LdBStoresDecimalDigits :
    (80 ≤ (base.setI 80).i.toNat ∧ (base.setI 80).i.toNat + 2 < 4095) ∧
    (80 ≤ (base.setI 4092).i.toNat ∧ (base.setI 4092).i.toNat + 2 < 4095) ∧
    (base.setI 79).i.toNat < 80 ∧ 4093 ≤ (base.setI 4093).i.toNat := by decide

/-- `I` at 79, 80, 4093 and 4094 with two registers. -/
theorem witness_BulkStoreWritesRegistersUpToX :
    (80 ≤ (base.setI 80).i.toNat ∧ (base.setI 80).i.toNat + (1 : Reg).val < 4095) ∧
    (80 ≤ (base.setI 4093).i.toNat ∧ (base.setI 4093).i.toNat + (1 : Reg).val < 4095) ∧
    (base.setI 79).i.toNat < 80 ∧ 4095 ≤ (base.setI 4094).i.toNat + (1 : Reg).val ∧
    (1 : Reg) ≤ 1 ∧ (0 : Reg) ≤ 1 := by decide

/-- `I` at 4093, 4094 and 65535 with two registers. -/
theorem witness_BulkLoadReadsRegistersUpToX :
    (base.setI 4093).i.toNat + (1 : Reg).val < 4095 ∧ 4095 ≤ (base.setI 4094).i.toNat + (1 : Reg).val ∧
    4095 ≤ (base.setI 65535).i.toNat + (0 : Reg).val ∧ (1 : Reg) ≤ 1 ∧ (1 : Reg) < 2 := by decide

theorem witness_BulkStoreThenLoadKeepsRegisters :
    (0 : Reg) ≤ 15 ∧ (15 : Reg) ≤ 15 ∧ goes (exec (.stRegs 15) (base.setI 4079)) = true := by decide

/-- Both clauses: the last two of sixteen registers, and the digits. -/
theorem witness_StoresAreSeenByTheNextFetch :
    goes (exec (.stRegs 15) (base.setI 0x400)) = true ∧ (15 : Reg).val = (14 : Reg).val + 1 ∧
    (15 : Reg) ≤ 15 ∧ (0x40E : Word).toNat = (base.setI 0x400).i.toNat + (14 : Reg).val ∧
    goes (exec (.ldB 0) (base.setI 4092)) = true := by decide

/-- Key 15 down and up, and the smallest value that names none. -/
theorem witness_KeySkipsTestTheNamedKey :
    NamedKeyIs ((regs [(0, 15)] base).setKey 15 true) 15 true ∧ NamedKeyIs (regs [(0, 15)] base) 15 false ∧
    15 < ((regs [(0, 16)] base).reg 0).toNat := by
  exact ⟨⟨15, by decide, by decide⟩, ⟨15, by decide, by decide⟩, by decide⟩

/-- Each row of the table of transitions. -/
theorem witness_WaitLatchFollowsItsTable :
    gives (perform (.execute 0xF00A) base) (fun t => t.wait == some 0) = true ∧
    gives (perform (.execute 0x6005) base) (fun t => t.wait == none) = true ∧
    gives (perform .step (bytes 0x300 [0xFF, 0x0A] base)) (fun t => t.wait == some 15) = true ∧
    goes (perform (.keyDown 15) (base.setWait (some 15))) = true ∧
    goes (perform (.keyUp 15) (base.setWait (some 15))) = true ∧
    goes (perform .tick (base.setWait (some 15))) = true ∧
    goes (perform .reset (base.setWait (some 15))) = true ∧
    goes (perform .step (base.setWait (some 15))) = true ∧ KeepsWaiting .step := by
  exact ⟨by decide, by decide, by decide, by decide, by decide, by decide, by decide, by decide, trivial⟩

theorem witness_WithoutKeyDownTheWaitNeverEnds :
    (∀ c ∈ [Command.tick, .keyUp 3, .execute 0x1200, .load [1], .step], KeepsWaiting c) ∧
    (base.setWait (some 2)).wait = some 2 ∧ (base.setWait (some 2)).pending = [] := by
  refine ⟨fun c h => ?_, rfl, rfl⟩
  simp at h
  rcases h with rfl | rfl | rfl | rfl | rfl <;> trivial

/-- No row, the last byte of memory, one row past it; a sprite bit over a set and over a clear pixel. -/
theorem witness_DrwTogglesTheSpriteAndReportsCollision :
    ((0 : Fin 16).val = 0 ∨ (base.setI 65535).i.toNat + (0 : Fin 16).val ≤ 4095) ∧
    ((1 : Fin 16).val = 0 ∨ (base.setI 4094).i.toNat + (1 : Fin 16).val ≤ 4095) ∧
    (0 < (1 : Fin 16).val ∧ 4095 < (base.setI 4095).i.toNat + (1 : Fin 16).val) ∧
    SpriteAt base 0 1 1 3 0 ∧ FrameBuffer.pixel (pixels [(3, 0)] base).fb 3 0 = true ∧
    FrameBuffer.pixel base.fb 3 0 = false := by
  exact ⟨by decide, by decide, by decide,
    ⟨0, 3, by decide, by decide, by decide, by decide, by decide⟩, by decide, by decide⟩

theorem witness_DrawingTwiceRestoresThePixels :
    (0 : Reg) ≠ VF ∧ (14 : Reg) ≠ VF ∧ goes (exec (.drw 0 14 15) (pixels [(3, 0)] base)) = true := by decide

/-- Every form of `pending` that the statements about commands name; waiting and running. -/
theorem witness_Commands :
    ({ base with pending := [.keyUp 15, .tick] } : State).pending = .keyUp 15 :: [.tick] ∧
    ({ base with pending := [.tick] } : State).pending = .tick :: [] ∧
    ({ base.setWait (some 15) with pending := [.keyDown 0] } : State).wait = some 15 ∧
    ({ base with pending := [.keyDown 0] } : State).wait = none ∧ (1 : Key) ≠ 0 ∧
    ({ base with pending := [.tick, .tick, .tick] } : State).pending = List.replicate 3 .tick ∧
    ({ base with pending := [.reset] } : State).pending = .reset :: [] ∧
    ({ base with pending := [.load [1, 2]] } : State).pending = .load [1, 2] :: [] := by decide

/-- The longest program that fits, and one byte more (S11). -/
theorem witness_LoadCopiesTheProgram :
    (List.replicate 3583 (1 : Byte)).length ≤ 3583 ∧ 3583 < (List.replicate 3584 (1 : Byte)).length := by
  rw [List.length_replicate, List.length_replicate]
  decide

end Sys2Proof.Tests
end

/-! SUPPORT. The five words of 30_encoding.md R70 as composed words: what the decoder answers on a whole
row of the map is said for every operand, and each word of R70 is one instance of it. -/

namespace Sys2Proof

/-- Class 0 (30_encoding.md R64): the address alone selects, the exact rows first. -/
theorem decode_class0_word (nnn : Addr12) : decode (wordNNN 0x0 nnn) =
    if nnn = 0x0E0#12 then some .cls else if nnn = 0x0EE#12 then some .ret else some (.sys nnn) := by
  have hclass : decode (wordNNN 0x0 nnn) = decodeClass0 (wordNNN 0x0 nnn) := by simp [decode]
  rw [hclass, decodeClass0, fieldNNN_wordNNN]
  split
  case h_1 => rfl
  case h_2 => rfl
  case h_3 hcls hret => rw [if_neg hcls, if_neg hret]

theorem decode_call_word (nnn : Addr12) : decode (wordNNN 0x2 nnn) = some (.call nnn) := by
  simp [decode]

theorem decode_ldImm_word (x : Nibble) (kk : Byte) :
    decode (wordXKK 0x6 x kk) = some (.ldImm (ofNibble x) kk) := by
  simp [decode]

theorem decode_addImm_word (x : Nibble) (kk : Byte) :
    decode (wordXKK 0x7 x kk) = some (.addImm (ofNibble x) kk) := by
  simp [decode]

/-- Settles O1: each word of R70 is a composed word, so its fields are the ones it was composed of and its
instruction is its row's. -/
theorem sourceWordsDecode : Obligations.SourceWordsDecode := by
  refine ⟨?ldImm, ?addImm, ?call, ?ret, ?sys⟩
  case ldImm =>
    exact ⟨fieldA_wordXKK 6 0 0x05, fieldX_wordXKK 6 0 0x05, fieldKK_wordXKK 6 0 0x05,
      decode_ldImm_word 0 0x05⟩
  case addImm =>
    exact ⟨fieldA_wordXKK 7 0 0x0A, fieldX_wordXKK 7 0 0x0A, fieldKK_wordXKK 7 0 0x0A,
      decode_addImm_word 0 0x0A⟩
  case call => exact ⟨fieldA_wordNNN 2 0x206, fieldNNN_wordNNN 2 0x206, decode_call_word 0x206⟩
  case ret => exact decode_class0_word 0x0EE
  case sys => exact decode_class0_word 0x000

end Sys2Proof

/-! SUPPORT. One `STEP` of a running block (40_dispatch.md R83) from its parts: the word of two bytes as a
number, the fetch where both bytes exist, and the instruction of the fetched word. -/

namespace Sys2Proof.Machine

/-- The big-endian word of two bytes as a number (20_memory.md R44). -/
theorem joinBytes_eq_ofNat (hi lo : Byte) :
    joinBytes hi lo = BitVec.ofNat 16 (hi.toNat * 256 + lo.toNat) := by
  apply BitVec.eq_of_toNat_eq
  calc (joinBytes hi lo).toNat
      _ = hi.toNat * 2 ^ 8 + lo.toNat := toNat_concat hi lo
      _ = (BitVec.ofNat 16 (hi.toNat * 256 + lo.toNat)).toNat := by
        rw [BitVec.toNat_ofNat]; omega

theorem fetch_of_lt {s : State} (h : s.pc.toNat + 1 < config.memSize) :
    fetch s = .ok (joinBytes (s.byteAt s.pc.toNat) (s.byteAt (s.pc.toNat + 1))) := by
  rw [fetch_eq, if_pos h]

/-- `STEP` on a running block is `EXECUTE` of the word it fetched (R83). -/
theorem stepCommand_of_fetch {s : State} {op : Word} (hw : s.wait = none) (hf : fetch s = .ok op) :
    stepCommand s = executeWord op s := by
  simp [stepCommand, hw, hf]

/-- `STEP` on a running block with both bytes at `pc` in memory is the instruction of their word. -/
theorem perform_step_running {s : State} {i : Instr} (hw : s.wait = none)
    (hpc : s.pc.toNat + 1 < config.memSize)
    (hd : decode (joinBytes (s.byteAt s.pc.toNat) (s.byteAt (s.pc.toNat + 1))) = some i) :
    perform .step s = exec i s :=
  (stepCommand_of_fetch hw (fetch_of_lt hpc)).trans (executeWord_running hw hd)

/-- Settles O6: with no command lined up the step is `STEP` on the state itself, and with `STEP` lined up
first it is `STEP` on the state with the rest, which has the same wait, `pc` and memory. -/
theorem stepRunsTheDecodedInstruction : Obligations.StepRunsTheDecodedInstruction := by
  intro s i hw hpc hd
  rw [← joinBytes_eq_ofNat] at hd
  constructor
  · intro hp
    rw [step_nil hp]
    exact perform_step_running hw hpc hd
  · intro rest hp
    rw [step_cons hp]
    exact perform_step_running (s := { s with pending := rest }) hw hpc hd

end Sys2Proof.Machine

/-! SUPPORT. The skips (41_control_flow.md R104, R105): each sets `pc` past one word or two and keeps every
other part, so an instruction is a skip by its condition alone. The word at `pc + 2` is not read. -/

namespace Sys2Proof.Machine

open Sys2Proof.Claims

/-- The frame of every skip, taken or not. -/
theorem State.skipIf_onlyChanges_pc (s : State) (c : Bool) : OnlyChanges [.pc] s (s.skipIf c) := by
  intro p hp
  cases p with
  | pc => exact absurd (List.mem_singleton_self Part.pc) hp
  | regs => exact s.skipIf_reg c
  | keys => exact s.skipIf_key c
  | mem => exact s.skipIf_byteAt c
  | rand => exact ⟨s.skipIf_randIn c, s.skipIf_draws c⟩
  | fb => exact fun px py => by rw [s.skipIf_fb c]
  | index | stack | dt | st | wait | param | pending => simp [Same]

theorem onlyMovesPc_of_skip_taken {i : Instr} {s : State} {c : Bool}
    (hi : exec i s = .next (s.skipIf c)) (hc : c = true) : OnlyMovesPc i s (s.pc + 4) :=
  ⟨s.skipIf c, hi, by rw [s.skipIf_pc c, if_pos hc], s.skipIf_onlyChanges_pc c⟩

theorem onlyMovesPc_of_skip_not_taken {i : Instr} {s : State} {c : Bool}
    (hi : exec i s = .next (s.skipIf c)) (hc : ¬c = true) : OnlyMovesPc i s (s.pc + 2) :=
  ⟨s.skipIf c, hi, by rw [s.skipIf_pc c, if_neg hc], s.skipIf_onlyChanges_pc c⟩

theorem exec_seImm (x : Reg) (kk : Byte) (s : State) :
    exec (.seImm x kk) s = .next (s.skipIf (s.reg x == kk)) := rfl

theorem exec_sneImm (x : Reg) (kk : Byte) (s : State) :
    exec (.sneImm x kk) s = .next (s.skipIf (s.reg x != kk)) := rfl

/-- Settles O28: of the two skips the one whose comparison holds is taken, the other is not. -/
theorem immediateSkipsCompareAndSkip : Obligations.ImmediateSkipsCompareAndSkip := by
  intro x kk s
  constructor
  · intro heq
    exact ⟨onlyMovesPc_of_skip_taken (exec_seImm x kk s) (by simpa using heq),
      onlyMovesPc_of_skip_not_taken (exec_sneImm x kk s) (by simpa using heq)⟩
  · intro hne
    exact ⟨onlyMovesPc_of_skip_not_taken (exec_seImm x kk s) (by simpa using hne),
      onlyMovesPc_of_skip_taken (exec_sneImm x kk s) (by simpa using hne)⟩

end Sys2Proof.Machine

/-! SUPPORT. The register loads (42_alu.md R120, R122): one register write, then `pc` moves on. What such an
instruction leaves unchanged does not depend on the value written, so it is said once for every value. -/

namespace Sys2Proof.Machine

open Sys2Proof.Claims

/-- The frame of a register write followed by the move of `pc`. -/
theorem State.setReg_advance_onlyChanges_regs_pc (s : State) (x : Reg) (w : Byte) :
    OnlyChanges [.regs, .pc] s (s.setReg x w).advance := by
  intro p hp
  cases p with
  | regs | pc => simp at hp
  | keys => exact s.setReg_key x w
  | mem => exact s.setReg_byteAt x w
  | rand => exact ⟨s.setReg_randIn x w, s.setReg_draws x w⟩
  | fb => exact fun px py => by rw [State.advance_fb, s.setReg_fb x w]
  | index | stack | dt | st | wait | param | pending => simp [Same]

/-- Whatever the value, `VF` as the destination included. -/
theorem writesOneReg_of_setReg_advance {i : Instr} {s : State} {x : Reg} {w : Byte}
    (hi : exec i s = .next (s.setReg x w).advance) : WritesOneReg i s x w := by
  have hother : OtherRegsKept [x] s (s.setReg x w).advance := fun r hr =>
    s.reg_setReg_ne w (List.ne_of_not_mem_cons hr)
  exact ⟨(s.setReg x w).advance, hi, s.reg_setReg_self x w, hother,
    (s.setReg x w).advance_pc, s.setReg_advance_onlyChanges_regs_pc x w⟩

theorem exec_ldImm (x : Reg) (kk : Byte) (s : State) :
    exec (.ldImm x kk) s = .next (s.setReg x kk).advance := rfl

theorem exec_ldReg (x y : Reg) (s : State) :
    exec (.ldReg x y) s = .next (s.setReg x (s.reg y)).advance := rfl

/-- Settles O31: both loads are one register write, of `kk` or of `V[y]` as it was. -/
theorem loadsWriteExactlyTheValue : Obligations.LoadsWriteExactlyTheValue := by
  intro x y kk s
  exact ⟨writesOneReg_of_setReg_advance (exec_ldImm x kk s),
    writesOneReg_of_setReg_advance (exec_ldReg x y s)⟩

end Sys2Proof.Machine

/-! SUPPORT. The index load and the timer moves (43_index_timer_key.md R140, R142 to R144): one write to one
part, then `pc` moves on. The move of `pc` adds itself to the frame of the write, whatever was written. -/

namespace Sys2Proof.Machine

open Sys2Proof.Claims

theorem same_refl (s : State) (p : Part) : Same s s p := by
  cases p with
  | rand => exact ⟨rfl, rfl⟩
  | fb => exact fun _ _ => rfl
  | regs | keys | mem => exact fun _ => rfl
  | index | pc | stack | dt | st | wait | param | pending => exact rfl

/-- A write to one part and then the move of `pc` change these two parts only. -/
theorem onlyChanges_advance {q : Part} {s t : State} (h : OnlyChanges [q] s t) :
    OnlyChanges [q, .pc] s t.advance := by
  intro p hp
  have hsame : Same s t p := h p fun hq => hp (List.mem_append_left [Part.pc] hq)
  cases p with
  | pc => simp at hp
  | regs | index | stack | dt | st | keys | wait | fb | mem | param | pending | rand => exact hsame

theorem State.setI_onlyChanges_index (s : State) (w : Word) : OnlyChanges [.index] s (s.setI w) := by
  intro p hp
  have hsame : Same s s p := same_refl s p
  cases p with
  | index => simp at hp
  | regs | pc | stack | dt | st | keys | wait | fb | mem | param | pending | rand =>
    exact hsame

theorem State.setDt_onlyChanges_dt (s : State) (w : Byte) : OnlyChanges [.dt] s (s.setDt w) := by
  intro p hp
  have hsame : Same s s p := same_refl s p
  cases p with
  | dt => simp at hp
  | regs | index | pc | stack | st | keys | wait | fb | mem | param | pending | rand =>
    exact hsame

theorem State.setSt_onlyChanges_st (s : State) (w : Byte) : OnlyChanges [.st] s (s.setSt w) := by
  intro p hp
  have hsame : Same s s p := same_refl s p
  cases p with
  | st => simp at hp
  | regs | index | pc | stack | dt | keys | wait | fb | mem | param | pending | rand =>
    exact hsame

/-- An absolute address is `nnn` itself as a number (30_encoding.md R62). -/
theorem toNat_absolute (nnn : Addr12) : (absolute nnn).toNat = nnn.toNat :=
  BitVec.toNat_setWidth_of_le (by decide)

theorem exec_ldI (nnn : Addr12) (s : State) :
    exec (.ldI nnn) s = .next (s.setI (absolute nnn)).advance := rfl

theorem exec_ldVxDt (x : Reg) (s : State) :
    exec (.ldVxDt x) s = .next (s.setReg x s.dt).advance := rfl

theorem exec_ldDtVx (x : Reg) (s : State) :
    exec (.ldDtVx x) s = .next (s.setDt (s.reg x)).advance := rfl

theorem exec_ldStVx (x : Reg) (s : State) :
    exec (.ldStVx x) s = .next (s.setSt (s.reg x)).advance := rfl

/-- Settles O38: one write of the index, whose zero extension keeps the number `nnn`; no address is
checked. -/
theorem ldISetsTheIndex : Obligations.LdISetsTheIndex := by
  intro nnn s
  exact ⟨_, exec_ldI nnn s, toNat_absolute nnn, rfl,
    onlyChanges_advance (s.setI_onlyChanges_index _)⟩

/-- Settles O39: the read of `DT` is one register write, each load of a timer one write of that timer. -/
theorem timerMovesCopyTheByte : Obligations.TimerMovesCopyTheByte := by
  intro x s
  refine ⟨writesOneReg_of_setReg_advance (exec_ldVxDt x s), ?ldDt, ?ldSt⟩
  case ldDt =>
    exact ⟨_, exec_ldDtVx x s, rfl, rfl, onlyChanges_advance (s.setDt_onlyChanges_dt _)⟩
  case ldSt =>
    exact ⟨_, exec_ldStVx x s, rfl, rfl, onlyChanges_advance (s.setSt_onlyChanges_st _)⟩

end Sys2Proof.Machine

/-! SUPPORT. What an instruction and a command do to the timers (43_index_timer_key.md R152): both keep
their bytes, but for the two loads, `TICK` and `RESET`. -/

namespace Sys2Proof.Machine

theorem drawByte_timers (s : State) : s.drawByte.2.dt = s.dt ∧ s.drawByte.2.st = s.st := by
  obtain ⟨bytes, count, hdraw⟩ := drawByte_frame s
  rw [hdraw]
  exact ⟨rfl, rfl⟩

/-- What an instruction can do to the timers: keep both, or be the load of one. -/
theorem exec_timers_cases {i : Instr} {s t : State} (h : exec i s = .next t) :
    (t.dt = s.dt ∧ t.st = s.st) ∨
      (∃ x, i = .ldDtVx x ∧ t = (s.setDt (s.reg x)).advance) ∨
      ∃ x, i = .ldStVx x ∧ t = (s.setSt (s.reg x)).advance := by
  cases i with
  | ldDtVx x => exact .inr (.inl ⟨x, rfl, (Host.Outcome.next.inj h).symm⟩)
  | ldStVx x => exact .inr (.inr ⟨x, rfl, (Host.Outcome.next.inj h).symm⟩)
  | rnd x kk =>
    obtain rfl := Host.Outcome.next.inj h
    exact .inl (drawByte_timers s)
  | ret =>
    obtain ⟨w, rest, -, rfl⟩ := execRet_next.1 h
    exact .inl ⟨rfl, rfl⟩
  | call nnn =>
    obtain ⟨-, rfl⟩ := execCall_next.1 h
    exact .inl ⟨rfl, rfl⟩
  | drw x y n =>
    obtain ⟨-, rfl⟩ := execDrw_next.1 h
    exact .inl ⟨rfl, rfl⟩
  | ldF x =>
    obtain ⟨-, rfl⟩ := execLdF_next.1 h
    exact .inl ⟨rfl, rfl⟩
  | ldB x =>
    obtain ⟨-, rfl⟩ := execLdB_next.1 h
    exact .inl ⟨rfl, rfl⟩
  | stRegs x =>
    obtain ⟨-, rfl⟩ := execStRegs_next.1 h
    exact .inl ⟨rfl, rfl⟩
  | ldRegs x =>
    obtain ⟨-, rfl⟩ := execLdRegs_next.1 h
    exact .inl ⟨rfl, rfl⟩
  | skp x | sknp x =>
    obtain ⟨k, -, rfl⟩ := skipOnKey_next.1 h
    exact .inl ⟨rfl, rfl⟩
  | cls | sys | jp | jpV0 | seImm | sneImm | seReg | sneReg | ldImm | addImm | ldReg | orReg | andReg
  | xorReg | addReg | subReg | shr | subnReg | shl | ldI | addI | ldVxDt | ldVxK =>
    obtain rfl := Host.Outcome.next.inj h
    exact .inl ⟨rfl, rfl⟩

theorem exec_dt_cases {i : Instr} {s t : State} (h : exec i s = .next t) :
    t.dt = s.dt ∨ ∃ x, i = .ldDtVx x ∧ t.dt = s.reg x := by
  rcases exec_timers_cases h with ⟨hdt, -⟩ | ⟨x, hi, rfl⟩ | ⟨x, -, rfl⟩
  · exact .inl hdt
  · exact .inr ⟨x, hi, rfl⟩
  · exact .inl rfl

theorem exec_st_cases {i : Instr} {s t : State} (h : exec i s = .next t) :
    t.st = s.st ∨ ∃ x, i = .ldStVx x ∧ t.st = s.reg x := by
  rcases exec_timers_cases h with ⟨-, hst⟩ | ⟨x, -, rfl⟩ | ⟨x, hi, rfl⟩
  · exact .inl hst
  · exact .inl rfl
  · exact .inr ⟨x, hi, rfl⟩

theorem loadCommand_timers (bytes : List Byte) (s : State) :
    (loadCommand bytes s).2.dt = s.dt ∧ (loadCommand bytes s).2.st = s.st := by
  unfold loadCommand
  split
  · exact ⟨rfl, rfl⟩
  · exact ⟨rfl, rfl⟩

theorem keyDownCommand_timers (k : Key) (s : State) :
    (keyDownCommand k s).dt = s.dt ∧ (keyDownCommand k s).st = s.st := by
  unfold keyDownCommand
  split
  · exact ⟨rfl, rfl⟩
  · exact ⟨rfl, rfl⟩

/-- What a command can do to the timers: keep both, or be `TICK`, `RESET` or one that runs an
instruction. -/
theorem perform_timers_cases {c : Command} {s t : State} (h : perform c s = .next t) :
    (t.dt = s.dt ∧ t.st = s.st) ∨ c = .tick ∨ c = .reset ∨
      ∃ op i, (c = .execute op ∨ (c = .step ∧ fetch s = .ok op)) ∧ decode op = some i ∧
        exec i s = .next t := by
  rcases perform_cases h with ⟨hc, -⟩ | ⟨bytes, -, rfl⟩ | ⟨k, -, rfl⟩ | ⟨k, -, rfl⟩ | ⟨hc, -⟩ |
    ⟨-, -, rfl⟩ | ⟨op, i, hc, -, hd, he⟩
  · exact .inr (.inr (.inl hc))
  · exact .inl (loadCommand_timers bytes s)
  · exact .inl (keyDownCommand_timers k s)
  · exact .inl ⟨rfl, rfl⟩
  · exact .inr (.inl hc)
  · exact .inl ⟨rfl, rfl⟩
  · exact .inr (.inr (.inr ⟨op, i, hc, hd, he⟩))

/-- For either timer: a part of the state that is the same where both timers are, and that of all
instructions only `load` can change, is lowered by `TICK`, `RESET` or a command that runs a `load`. -/
theorem command_of_timer_lowered {timer : State → Byte} {load : Reg → Instr} {c : Command} {s t : State}
    (htimer : t.dt = s.dt ∧ t.st = s.st → timer t = timer s)
    (hexec : ∀ i, exec i s = .next t → timer t = timer s ∨ ∃ x, i = load x ∧ timer t = s.reg x)
    (h : perform c s = .next t) (hlt : (timer t).toNat < (timer s).toNat) :
    c = .tick ∨ c = .reset ∨ (∃ op x, c = .execute op ∧ decode op = some (load x)) ∨
      (c = .step ∧ ∃ op x, fetch s = .ok op ∧ decode op = some (load x)) := by
  have hne : timer t ≠ timer s := fun heq => by simp [heq] at hlt
  rcases perform_timers_cases h with hkept | hc | hc | ⟨op, i, hc, hd, he⟩
  · exact absurd (htimer hkept) hne
  · exact .inl hc
  · exact .inr (.inl hc)
  · obtain ⟨x, rfl, -⟩ := (hexec i he).resolve_left hne
    rcases hc with hc | ⟨hc, hf⟩
    · exact .inr (.inr (.inl ⟨op, x, hc, hd⟩))
    · exact .inr (.inr (.inr ⟨hc, op, x, hf, hd⟩))

/-- Settles O15: each timer is kept by every instruction but its load, so a command that lowers it runs
that load or is `TICK` or `RESET`. -/
theorem noInstructionAdvancesATimer : Obligations.NoInstructionAdvancesATimer := by
  constructor
  · intro i s t h
    exact ⟨exec_dt_cases h, exec_st_cases h⟩
  · intro s t c h
    exact ⟨command_of_timer_lowered (timer := State.dt) And.left (fun _ => exec_dt_cases) h,
      command_of_timer_lowered (timer := State.st) And.right (fun _ => exec_st_cases) h⟩

end Sys2Proof.Machine

/-! SUPPORT. `CLS` (45_display.md R165): one write of the framebuffer. -/

namespace Sys2Proof.Machine

open Sys2Proof.Claims

theorem State.setFb_onlyChanges_fb (s : State) (fb : FrameBuffer) :
    OnlyChanges [.fb] s (s.setFb fb) := by
  intro p hp
  have hsame : Same s s p := same_refl s p
  cases p with
  | fb => simp at hp
  | regs | index | pc | stack | dt | st | keys | wait | mem | param | pending | rand =>
    exact hsame

theorem exec_cls (s : State) : exec .cls s = .next (s.setFb FrameBuffer.clear).advance := rfl

/-- Settles O50: one write of the cleared framebuffer, then the move of `pc`; no register is written. -/
theorem clsClearsThePixels : Obligations.ClsClearsThePixels := by
  intro s
  exact ⟨_, exec_cls s, FrameBuffer.pixel_clear, State.advance_pc _,
    onlyChanges_advance (s.setFb_onlyChanges_fb FrameBuffer.clear)⟩

end Sys2Proof.Machine

/-! SUPPORT. The decoder and the encoder are inverse (30_encoding.md R63, R64): from an instruction
over its opcode by the fields of the composed word, from a word over its instruction class by class.
-/

namespace Sys2Proof

/-- Settles O2: each opcode is a composed word, whose class and selecting field choose the row and
whose other fields are the operands; only class 0 has a choice to make, and well-formedness makes it.
-/
theorem decodeOfEncodeIsTheInstruction : Obligations.DecodeOfEncodeIsTheInstruction := by
  intro i hwf
  cases i with
  | cls => exact decode_class0_word 0x0E0
  | ret => exact decode_class0_word 0x0EE
  | sys nnn =>
    have hne : nnn ≠ 0x0E0#12 ∧ nnn ≠ 0x0EE#12 := by simpa [Instr.wf, sysOperandOk] using hwf
    rw [encode, decode_class0_word, if_neg hne.1, if_neg hne.2]
  | jp | call | seImm | sneImm | seReg | ldImm | addImm | sneReg | ldI | jpV0 | rnd | drw =>
    simp [encode, decode]
  | ldReg | orReg | andReg | xorReg | addReg | subReg | shr | subnReg | shl =>
    simp [encode, decode, decodeClass8]
  | skp | sknp => simp [encode, decode, decodeClassE]
  | ldVxDt | ldVxK | ldDtVx | ldStVx | addI | ldF | ldB | stRegs | ldRegs =>
    simp [encode, decode, decodeClassF]

/-! ### A word from its instruction, class by class: the fields that select the row are known, the
others are the operands, and a word is its fields -/

theorem encode_of_decodeClass0 {op : Word} {i : Instr} (hA : fieldA op = 0x0#4)
    (h : decodeClass0 op = some i) : i.wf = true ∧ encode i = op := by
  have hop := wordNNN_fields op
  unfold decodeClass0 at h
  split at h
  case h_1 hN | h_2 hN =>
    obtain rfl := Option.some.inj h
    rw [hA, hN] at hop
    exact ⟨rfl, hop⟩
  case h_3 hcls hret =>
    obtain rfl := Option.some.inj h
    rw [hA] at hop
    exact ⟨by simpa [Instr.wf, sysOperandOk] using And.intro hcls hret, hop⟩

theorem encode_of_decodeClass8 {op : Word} {i : Instr} (hA : fieldA op = 0x8#4)
    (h : decodeClass8 op = some i) : i.wf = true ∧ encode i = op := by
  have hop := wordXYN_fields op
  unfold decodeClass8 at h
  split at h
  case h_10 => simp at h
  case h_1 hN | h_2 hN | h_3 hN | h_4 hN | h_5 hN | h_6 hN | h_7 hN | h_8 hN | h_9 hN =>
    obtain rfl := Option.some.inj h
    rw [hA, hN] at hop
    exact ⟨rfl, hop⟩

theorem encode_of_decodeClassE {op : Word} {i : Instr} (hA : fieldA op = 0xE#4)
    (h : decodeClassE op = some i) : i.wf = true ∧ encode i = op := by
  have hop := wordXKK_fields op
  unfold decodeClassE at h
  split at h
  case h_3 => simp at h
  case h_1 hK | h_2 hK =>
    obtain rfl := Option.some.inj h
    rw [hA, hK] at hop
    exact ⟨rfl, hop⟩

theorem encode_of_decodeClassF {op : Word} {i : Instr} (hA : fieldA op = 0xF#4)
    (h : decodeClassF op = some i) : i.wf = true ∧ encode i = op := by
  have hop := wordXKK_fields op
  unfold decodeClassF at h
  split at h
  case h_10 => simp at h
  case h_1 hK | h_2 hK | h_3 hK | h_4 hK | h_5 hK | h_6 hK | h_7 hK | h_8 hK | h_9 hK =>
    obtain rfl := Option.some.inj h
    rw [hA, hK] at hop
    exact ⟨rfl, hop⟩

/-- Settles O3: a class with one row per word of its mask is rebuilt from the fields of the word, a
class with a selecting field from its own lemma above. -/
theorem encodeOfDecodeIsTheWord : Obligations.EncodeOfDecodeIsTheWord := by
  intro op i h
  have hXYN := wordXYN_fields op
  have hXKK := wordXKK_fields op
  have hNNN := wordNNN_fields op
  unfold decode at h
  split at h
  case h_1 hA => exact encode_of_decodeClass0 hA h
  case h_9 hA => exact encode_of_decodeClass8 hA h
  case h_15 hA => exact encode_of_decodeClassE hA h
  case h_16 hA => exact encode_of_decodeClassF hA h
  case h_17 => simp at h
  case h_2 hA | h_3 hA | h_11 hA | h_12 hA =>
    obtain rfl := Option.some.inj h
    rw [hA] at hNNN
    exact ⟨rfl, hNNN⟩
  case h_4 hA | h_5 hA | h_7 hA | h_8 hA | h_13 hA =>
    obtain rfl := Option.some.inj h
    rw [hA] at hXKK
    exact ⟨rfl, hXKK⟩
  case h_14 hA =>
    obtain rfl := Option.some.inj h
    rw [hA] at hXYN
    exact ⟨rfl, hXYN⟩
  case h_6 hA | h_10 hA =>
    split at h
    case isTrue hN =>
      obtain rfl := Option.some.inj h
      rw [hA, hN] at hXYN
      exact ⟨rfl, hXYN⟩
    case isFalse => simp at h

/-! ### The rows of the map -/

open Laws.MatchesRow in
/-- The opcode of every instruction lies in its own row. -/
theorem row_covers_encode : ∀ i : Instr, i.row.covers (encode i) = true
  | .cls => cls | .ret => ret | .sys nnn => sys nnn | .jp nnn => jp nnn | .call nnn => call nnn
  | .seImm x kk => seImm x kk | .sneImm x kk => sneImm x kk | .seReg x y => seReg x y
  | .ldImm x kk => ldImm x kk | .addImm x kk => addImm x kk | .ldReg x y => ldReg x y
  | .orReg x y => orReg x y | .andReg x y => andReg x y | .xorReg x y => xorReg x y
  | .addReg x y => addReg x y | .subReg x y => subReg x y | .shr x y => shr x y
  | .subnReg x y => subnReg x y | .shl x y => shl x y | .sneReg x y => sneReg x y
  | .ldI nnn => ldI nnn | .jpV0 nnn => jpV0 nnn | .rnd x kk => rnd x kk | .drw x y n => drw x y n
  | .skp x => skp x | .sknp x => sknp x | .ldVxDt x => ldVxDt x | .ldVxK x => ldVxK x
  | .ldDtVx x => ldDtVx x | .ldStVx x => ldStVx x | .addI x => addI x | .ldF x => ldF x
  | .ldB x => ldB x | .stRegs x => stRegs x | .ldRegs x => ldRegs x

/-! A field of a literal word is a literal: `simp` evaluates the division. -/

theorem fieldA_ofNat (k : Nat) : fieldA (BitVec.ofNat 16 k) = BitVec.ofNat 4 (k / 4096) := by
  apply BitVec.eq_of_toNat_eq
  rw [toNat_fieldA, BitVec.toNat_ofNat, BitVec.toNat_ofNat]; omega

theorem fieldN_ofNat (k : Nat) : fieldN (BitVec.ofNat 16 k) = BitVec.ofNat 4 k := by
  apply BitVec.eq_of_toNat_eq
  rw [toNat_fieldN, BitVec.toNat_ofNat, BitVec.toNat_ofNat]; omega

theorem fieldKK_ofNat (k : Nat) : fieldKK (BitVec.ofNat 16 k) = BitVec.ofNat 8 k := by
  apply BitVec.eq_of_toNat_eq
  rw [toNat_fieldKK, BitVec.toNat_ofNat, BitVec.toNat_ofNat]; omega

/-- A row of mask F000 fixes the class. -/
theorem fieldA_of_covers_F000 {op p : Word} (h : OpRow.covers ⟨0xF000, p⟩ op = true) :
    fieldA op = fieldA p := by
  have hand : op &&& 0xF000#16 = p := by simpa [OpRow.covers] using h
  rw [← hand, and_F000, fieldA_wordXYN]

/-- A row of mask F00F fixes the class and the low nibble. -/
theorem fields_of_covers_F00F {op p : Word} (h : OpRow.covers ⟨0xF00F, p⟩ op = true) :
    fieldA op = fieldA p ∧ fieldN op = fieldN p := by
  have hand : op &&& 0xF00F#16 = p := by simpa [OpRow.covers] using h
  rw [← hand, and_F00F, fieldA_wordXYN, fieldN_wordXYN]
  exact ⟨rfl, rfl⟩

/-- A row of mask F0FF fixes the class and the low byte. -/
theorem fields_of_covers_F0FF {op p : Word} (h : OpRow.covers ⟨0xF0FF, p⟩ op = true) :
    fieldA op = fieldA p ∧ fieldKK op = fieldKK p := by
  have hand : op &&& 0xF0FF#16 = p := by simpa [OpRow.covers] using h
  rw [← hand, and_F0FF, fieldA_wordXKK, fieldKK_wordXKK]
  exact ⟨rfl, rfl⟩

/-- A row of mask FFFF has one word. -/
theorem eq_of_covers_FFFF {op p : Word} (h : OpRow.covers ⟨0xFFFF, p⟩ op = true) : op = p := by
  have hand : op &&& BitVec.allOnes 16 = p := by simpa [OpRow.covers] using h
  rwa [BitVec.and_allOnes] at hand

/-- A word of class 0 other than the two exact rows is `SYS`. -/
theorem decode_sys_of_ne {op : Word} (hA : fieldA op = 0) (hcls : op ≠ 0x00E0) (hret : op ≠ 0x00EE) :
    decode op = some (.sys (fieldNNN op)) := by
  have hop := wordNNN_fields op
  rw [hA] at hop
  rw [← hop] at hcls hret ⊢
  have hne : fieldNNN op ≠ 0x0E0#12 ∧ fieldNNN op ≠ 0x0EE#12 :=
    ⟨fun h => hcls (by rw [h]; rfl), fun h => hret (by rw [h]; rfl)⟩
  rw [decode_class0_word, if_neg hne.1, if_neg hne.2, fieldNNN_wordNNN]

/-- Every word that a row covers is decoded to an instruction of the row, `SYS` where no exact row
wins. -/
theorem exists_decode_of_covers {i : Instr} {op : Word} (h : i.row.covers op = true)
    (hsys : i.row = (Instr.sys 0).row → op ≠ 0x00E0 ∧ op ≠ 0x00EE) :
    ∃ j, decode op = some j ∧ j.row = i.row := by
  cases i with
  | cls =>
    obtain rfl := eq_of_covers_FFFF h
    exact ⟨.cls, by decide, rfl⟩
  | ret =>
    obtain rfl := eq_of_covers_FFFF h
    exact ⟨.ret, by decide, rfl⟩
  | sys =>
    obtain ⟨hcls, hret⟩ := hsys rfl
    exact ⟨_, decode_sys_of_ne (fieldA_of_covers_F000 h) hcls hret, rfl⟩
  | jp | call | seImm | sneImm | ldImm | addImm | ldI | jpV0 | rnd | drw =>
    have hA := fieldA_of_covers_F000 h
    simp [decode, hA, fieldA_ofNat, Instr.row]
  | seReg | ldReg | orReg | andReg | xorReg | addReg | subReg | shr | subnReg | shl | sneReg =>
    obtain ⟨hA, hN⟩ := fields_of_covers_F00F h
    simp [decode, decodeClass8, hA, hN, fieldA_ofNat, fieldN_ofNat, Instr.row]
  | skp | sknp | ldVxDt | ldVxK | ldDtVx | ldStVx | addI | ldF | ldB | stRegs | ldRegs =>
    obtain ⟨hA, hK⟩ := fields_of_covers_F0FF h
    simp [decode, decodeClassE, decodeClassF, hA, hK, fieldA_ofNat, fieldKK_ofNat, Instr.row]

/-- Settles O4: a decoded word is its instruction's opcode (O3), which the instruction's row covers;
the other way each mask fixes the fields that `decode` selects by. -/
theorem decodeSelectsTheCoveringRow : Obligations.DecodeSelectsTheCoveringRow := by
  constructor
  · intro op i h
    have hword : encode i = op := (encodeOfDecodeIsTheWord op i h).2
    exact hword ▸ row_covers_encode i
  · intro i op h hsys
    exact exists_decode_of_covers h hsys

/-! ### Illegal words (30_encoding.md R66): which a class has, by its selecting field -/

theorem decodeClass0_ne_none (op : Word) : decodeClass0 op ≠ none := by
  unfold decodeClass0
  split
  case h_1 | h_2 | h_3 => exact Option.some_ne_none _

theorem decodeClass8_eq_none (op : Word) : decodeClass8 op = none ↔
    (fieldN op).toNat ∈ [0x8, 0x9, 0xA, 0xB, 0xC, 0xD, 0xF] := by
  unfold decodeClass8
  split
  case h_10 =>
    have hlt := (fieldN op).isLt
    simp only [imp_false, ← BitVec.toNat_inj, BitVec.toNat_ofNat] at *
    simp only [List.mem_cons, List.not_mem_nil, true_iff]
    omega
  case h_1 hN | h_2 hN | h_3 hN | h_4 hN | h_5 hN | h_6 hN | h_7 hN | h_8 hN | h_9 hN => simp [hN]

theorem decodeClassE_eq_none (op : Word) :
    decodeClassE op = none ↔ (fieldKK op).toNat ∉ [0x9E, 0xA1] := by
  unfold decodeClassE
  split
  case h_3 => simp_all [← BitVec.toNat_inj]
  case h_1 hK | h_2 hK => simp [hK]

theorem decodeClassF_eq_none (op : Word) : decodeClassF op = none ↔
    (fieldKK op).toNat ∉ [0x07, 0x0A, 0x15, 0x18, 0x1E, 0x29, 0x33, 0x55, 0x65] := by
  unfold decodeClassF
  split
  case h_10 => simp_all [← BitVec.toNat_inj]
  case h_1 hK | h_2 hK | h_3 hK | h_4 hK | h_5 hK | h_6 hK | h_7 hK | h_8 hK | h_9 hK => simp [hK]

/-- The sixteen classes. -/
theorem nibble_mem : ∀ a : Nibble,
    a ∈ [0x0#4, 0x1#4, 0x2#4, 0x3#4, 0x4#4, 0x5#4, 0x6#4, 0x7#4, 0x8#4, 0x9#4, 0xA#4, 0xB#4, 0xC#4,
      0xD#4, 0xE#4, 0xF#4] := by
  decide

/-- Settles O5: the numbers of the statement are the class, the low nibble and the low byte of the
word; each class then has the illegal words of its lemma, and the other classes none. -/
theorem illegalWordsAreExactlyTheListed : Obligations.IllegalWordsAreExactlyTheListed := by
  intro op
  have hclass : op.toNat / 4096 = (fieldA op).toNat := by rw [toNat_fieldA]; omega
  rw [hclass, ← toNat_fieldN, ← toNat_fieldKK]
  unfold decode
  split
  case h_1 hA => simp [hA, decodeClass0_ne_none]
  case h_6 hA | h_10 hA => simp [hA, ← BitVec.toNat_inj]
  case h_9 hA => simp [hA, decodeClass8_eq_none]
  case h_15 hA => simp [hA, decodeClassE_eq_none]
  case h_16 hA => simp [hA, decodeClassF_eq_none]
  case h_17 =>
    have hmem := nibble_mem (fieldA op)
    simp_all
  case h_2 hA | h_3 hA | h_4 hA | h_5 hA | h_7 hA | h_8 hA | h_11 hA | h_12 hA | h_13 hA | h_14 hA =>
    simp [hA]

end Sys2Proof

/-! SUPPORT. One form for every instruction (40_dispatch.md R82, R85): an error, or the instruction's
own writes and then the new `pc`. The errors and the writes are said once here; what holds of every
instruction follows from them without another look at its meaning. -/

namespace Sys2Proof.Machine

open Sys2Proof.Claims

/-- The error an instruction raises (60_exceptions.md R180). -/
def faultOf (i : Instr) (s : State) : Option Fault :=
  match i with
  | .ret => if s.stack = [] then some (.stackUnderflow s.pc) else none
  | .call _ => if s.stackFull then some (.stackOverflow s.pc) else none
  | .ldF x => if 15 < (s.reg x).toNat then some (.invalidFontDigit (s.reg x) s.pc) else none
  | .skp x | .sknp x => if 15 < (s.reg x).toNat then some (.invalidKeyIndex (s.reg x) s.pc) else none
  | .drw _ _ n => firstFault (readFault .read) s.i.toNat n.val
  | .ldRegs x => firstFault (readFault .read) s.i.toNat (x.val + 1)
  | .ldB _ => firstFault writeFault s.i.toNat 3
  | .stRegs x => firstFault writeFault s.i.toNat (x.val + 1)
  | _ => none

/-- What an instruction writes other than `pc` (10_state.md R26). -/
def effect (i : Instr) (s : State) : State :=
  match i with
  | .cls => s.setFb FrameBuffer.clear
  | .ret => s.setStack s.stack.tail
  | .call _ => s.push (s.pc + 2)
  | .ldImm x kk => s.setReg x kk
  | .addImm x kk => s.setReg x (s.reg x + kk)
  | .ldReg x y => s.setReg x (s.reg y)
  | .orReg x y => s.setReg x (s.reg x ||| s.reg y)
  | .andReg x y => s.setReg x (s.reg x &&& s.reg y)
  | .xorReg x y => s.setReg x (s.reg x ^^^ s.reg y)
  | .addReg x y => s.setRegThenFlag x (s.reg x + s.reg y) (carryOut (s.reg x) (s.reg y))
  | .subReg x y => s.setRegThenFlag x (s.reg x - s.reg y) (noBorrow (s.reg x) (s.reg y))
  | .subnReg x y => s.setRegThenFlag x (s.reg y - s.reg x) (noBorrow (s.reg y) (s.reg x))
  | .shr x _ => s.setRegThenFlag x (s.reg x >>> 1) (droppedRight (s.reg x))
  | .shl x _ => s.setRegThenFlag x (s.reg x <<< 1) (droppedLeft (s.reg x))
  | .rnd x kk => s.drawByte.2.setReg x (s.drawByte.1 &&& kk)
  | .drw x y n =>
    let d := drawSprite (s.reg x) (s.reg y) (spriteBytes s n.val) s.fb
    (s.setFb d.1).setReg VF (flagByte d.2)
  | .ldI nnn => s.setI (absolute nnn)
  | .addI x => s.setI (s.i + (s.reg x).setWidth 16)
  | .ldF x => s.setI (glyphAddress (s.reg x))
  | .ldVxDt x => s.setReg x s.dt
  | .ldVxK x => s.setWait (some x)
  | .ldDtVx x => s.setDt (s.reg x)
  | .ldStVx x => s.setSt (s.reg x)
  | .ldB x => s.storeBytes s.i.toNat (bcdDigits (s.reg x))
  | .stRegs x => s.storeBytes s.i.toNat (regsUpTo s x)
  | .ldRegs x => s.setRegs (regsLoadedUpTo s x)
  | .sys _ | .jp _ | .jpV0 _ | .seImm _ _ | .sneImm _ _ | .seReg _ _ | .sneReg _ _ => s
  | .skp _ | .sknp _ => s

/-- The outcome that an error or its absence and the state after it make. -/
def outcome (f : Option Fault) (t : State) : Host.Outcome State Fault Refusal :=
  match f with
  | some f => .fault f
  | none => .next t

/-- A meaning that checks first and then writes is such an outcome. -/
theorem checked_eq_outcome (o : Option Fault) (u : State) :
    (match o with
      | some f => raise f
      | none => .next u : Host.Outcome State Fault Refusal) = outcome o u := by
  cases o with
  | none => rfl
  | some f => rfl

theorem outcome_ite {c : Prop} [Decidable c] (f : Fault) (t : State) :
    outcome (if c then some f else none) t = if c then .fault f else .next t := by
  split
  · rfl
  · rfl

theorem advance_eq_setPc (s : State) : s.advance = s.setPc (s.pc + 2) := rfl

theorem skipIf_eq_setPc (s : State) (c : Bool) :
    s.skipIf c = s.setPc (if c = true then s.pc + 4 else s.pc + 2) := rfl

theorem skipIf_beq (s : State) (p q : Byte) :
    s.skipIf (p == q) = s.setPc (if p = q then s.pc + 4 else s.pc + 2) := by
  simp only [skipIf_eq_setPc, beq_iff_eq]

theorem skipIf_bne (s : State) (p q : Byte) :
    s.skipIf (p != q) = s.setPc (if p = q then s.pc + 2 else s.pc + 4) := by
  simp only [skipIf_eq_setPc, bne_iff_ne, ne_eq, ite_not]

theorem absolute_eq_ofNat (nnn : Addr12) : absolute nnn = BitVec.ofNat 16 nnn.toNat :=
  BitVec.eq_of_toNat_eq (by rw [toNat_absolute, BitVec.toNat_ofNat]; omega)

theorem absolutePlusV0_eq_ofNat (nnn : Addr12) (s : State) :
    absolutePlusV0 nnn s = BitVec.ofNat 16 (nnn.toNat + (s.reg V0).toNat) := by
  rw [absolutePlusV0, absolute_eq_ofNat, BitVec.ofNat_add, BitVec.ofNat_toNat, BitVec.ofNat_toNat]

@[simp] theorem drawByte_pc (s : State) : s.drawByte.2.pc = s.pc := by
  obtain ⟨bytes, count, hdraw⟩ := drawByte_frame s
  rw [hdraw]

/-- Both key skips, by the level that is tested for. -/
theorem skipOnKey_eq (x : Reg) (down : Bool) (s : State) :
    skipOnKey x down s =
      outcome (if 15 < (s.reg x).toNat then some (.invalidKeyIndex (s.reg x) s.pc) else none)
        (s.setPc (if h : (s.reg x).toNat < 16 then
          (if s.key ⟨_, h⟩ = down then s.pc + 4 else s.pc + 2) else s.pc)) := by
  unfold skipOnKey
  by_cases h : (s.reg x).toNat < 16
  · have hkey : ¬15 < (s.reg x).toNat := by omega
    simp [namedKey_eq, h, hkey, outcome, skipIf_eq_setPc]
  · have hnone : 15 < (s.reg x).toNat := by omega
    simp [namedKey_eq, h, hnone, outcome, raise]

/-- THE FORM OF EVERY INSTRUCTION: its error, or its writes and then the `pc` of 40_dispatch.md R85.
-/
theorem exec_eq (i : Instr) (s : State) :
    exec i s = outcome (faultOf i s) ((effect i s).setPc (pcAfter s i)) := by
  cases i with
  | cls | sys | ldImm | addImm | ldReg | orReg | andReg | xorReg | addReg | subReg | shr | subnReg | shl
  | ldI | addI | ldVxDt | ldVxK | ldDtVx | ldStVx => rfl
  | drw | ldB | stRegs | ldRegs =>
    refine (checked_eq_outcome _ _).trans ?_
    simp only [advance_eq_setPc, State.setReg_pc, State.setFb_pc, State.storeBytes_pc, State.setRegs_pc]
    rfl
  | rnd x kk =>
    refine congrArg Host.Outcome.next ?_
    rw [advance_eq_setPc, State.setReg_pc, drawByte_pc]
    rfl
  | jp nnn => exact congrArg (fun pc => Host.Outcome.next (s.setPc pc)) (absolute_eq_ofNat nnn)
  | jpV0 nnn =>
    exact congrArg (fun pc => Host.Outcome.next (s.setPc pc)) (absolutePlusV0_eq_ofNat nnn s)
  | seImm | seReg => exact congrArg Host.Outcome.next (skipIf_beq s _ _)
  | sneImm | sneReg => exact congrArg Host.Outcome.next (skipIf_bne s _ _)
  | skp x => exact skipOnKey_eq x true s
  | sknp x =>
    have hpc (k : Key) : (if s.key k = false then s.pc + 4 else s.pc + 2) =
        if s.key k = true then s.pc + 2 else s.pc + 4 := by
      cases s.key k with
      | false => rfl
      | true => rfl
    have hskip := skipOnKey_eq x false s
    simp only [hpc] at hskip
    exact hskip
  | ldF x => exact (outcome_ite _ _).symm
  | call nnn =>
    show execCall nnn s = outcome (if s.stackFull then some (.stackOverflow s.pc) else none)
      ((s.push (s.pc + 2)).setPc (BitVec.ofNat 16 nnn.toNat))
    rw [outcome_ite, ← absolute_eq_ofNat]
    rfl
  | ret =>
    show execRet s = outcome (if s.stack = [] then some (.stackUnderflow s.pc) else none)
      ((s.setStack s.stack.tail).setPc (s.stack.headD 0))
    unfold execRet
    cases s.stack with
    | nil => rfl
    | cons w rest => rfl

theorem exec_eq_next {i : Instr} {s t : State} :
    exec i s = .next t ↔ faultOf i s = none ∧ t = (effect i s).setPc (pcAfter s i) := by
  rw [exec_eq]
  cases faultOf i s <;> simp [outcome, eq_comm]

theorem exec_eq_fault {i : Instr} {s : State} {f : Fault} :
    exec i s = .fault f ↔ faultOf i s = some f := by
  rw [exec_eq]
  cases faultOf i s <;> simp [outcome]

theorem exec_ne_refused (i : Instr) (s : State) (r : Refusal) : exec i s ≠ .refused r := by
  rw [exec_eq]
  cases faultOf i s <;> simp [outcome]

/-! ### The frame of every instruction (10_state.md R26) -/

theorem onlyChanges_refl (s : State) : OnlyChanges [] s s := fun p _ => same_refl s p

theorem onlyChanges_mono {ps qs : List Part} {s t : State} (h : OnlyChanges ps s t) (hsub : ps ⊆ qs) :
    OnlyChanges qs s t := fun p hp => h p fun hmem => hp (hsub hmem)

theorem same_trans {s t u : State} {p : Part} (hst : Same s t p) (htu : Same t u p) : Same s u p := by
  cases p with
  | regs | keys | mem => exact fun k => (htu k).trans (hst k)
  | fb => exact fun x y => (htu x y).trans (hst x y)
  | rand => exact ⟨htu.1.trans hst.1, htu.2.trans hst.2⟩
  | index | pc | stack | dt | st | wait | param | pending => exact Eq.trans htu hst

theorem onlyChanges_trans {ps qs : List Part} {s t u : State} (hst : OnlyChanges ps s t)
    (htu : OnlyChanges qs t u) : OnlyChanges (ps ++ qs) s u := by
  intro p hp
  rw [List.mem_append, not_or] at hp
  exact same_trans (hst p hp.1) (htu p hp.2)

theorem State.setReg_onlyChanges_regs (s : State) (x : Reg) (w : Byte) :
    OnlyChanges [.regs] s (s.setReg x w) := by
  intro p hp
  have hsame : Same s s p := same_refl s p
  cases p with
  | regs => simp at hp
  | _ => exact hsame

theorem State.setRegs_onlyChanges_regs (s : State) (v : Vector Byte 16) :
    OnlyChanges [.regs] s (s.setRegs v) := by
  intro p hp
  have hsame : Same s s p := same_refl s p
  cases p with
  | regs => simp at hp
  | _ => exact hsame

theorem State.setRegThenFlag_onlyChanges_regs (s : State) (x : Reg) (w : Byte) (f : Bool) :
    OnlyChanges [.regs] s (s.setRegThenFlag x w f) :=
  onlyChanges_mono (onlyChanges_trans (s.setReg_onlyChanges_regs x w)
    ((s.setReg x w).setReg_onlyChanges_regs VF (flagByte f))) (by decide)

theorem State.setPc_onlyChanges_pc (s : State) (w : Word) : OnlyChanges [.pc] s (s.setPc w) := by
  intro p hp
  have hsame : Same s s p := same_refl s p
  cases p with
  | pc => simp at hp
  | _ => exact hsame

theorem State.setStack_onlyChanges_stack (s : State) (stack : List Word) :
    OnlyChanges [.stack] s (s.setStack stack) := by
  intro p hp
  have hsame : Same s s p := same_refl s p
  cases p with
  | stack => simp at hp
  | _ => exact hsame

theorem State.setWait_onlyChanges_wait (s : State) (w : Option Reg) :
    OnlyChanges [.wait] s (s.setWait w) := by
  intro p hp
  have hsame : Same s s p := same_refl s p
  cases p with
  | wait => simp at hp
  | _ => exact hsame

theorem State.storeBytes_onlyChanges_mem (s : State) (a : Nat) (ws : List Byte) :
    OnlyChanges [.mem] s (s.storeBytes a ws) := by
  intro p hp
  have hsame : Same s s p := same_refl s p
  cases p with
  | mem => simp at hp
  | _ => exact hsame

theorem drawByte_onlyChanges_rand (s : State) : OnlyChanges [.rand] s s.drawByte.2 := by
  obtain ⟨bytes, count, hdraw⟩ := drawByte_frame s
  rw [hdraw]
  intro p hp
  have hsame : Same s s p := same_refl s p
  cases p with
  | rand => simp at hp
  | _ => exact hsame

/-- The writes of an instruction touch only the parts of its row of R26. -/
theorem effect_onlyChanges (i : Instr) (s : State) : OnlyChanges (writtenParts i) s (effect i s) := by
  cases i with
  | sys | jp | jpV0 | seImm | sneImm | seReg | sneReg | skp | sknp =>
    exact onlyChanges_mono (onlyChanges_refl s) (List.nil_subset _)
  | cls => exact onlyChanges_mono (s.setFb_onlyChanges_fb _) (by decide)
  | ret | call => exact onlyChanges_mono (s.setStack_onlyChanges_stack _) (by simp [writtenParts])
  | ldImm | addImm | ldReg | orReg | andReg | xorReg | ldVxDt =>
    exact onlyChanges_mono (s.setReg_onlyChanges_regs _ _) (by simp [writtenParts])
  | addReg | subReg | subnReg | shr | shl =>
    exact onlyChanges_mono (s.setRegThenFlag_onlyChanges_regs _ _ _) (by simp [writtenParts])
  | rnd x kk =>
    exact onlyChanges_mono (onlyChanges_trans (drawByte_onlyChanges_rand s)
      (s.drawByte.2.setReg_onlyChanges_regs x _)) (by simp [writtenParts])
  | drw x y n =>
    exact onlyChanges_mono (onlyChanges_trans (s.setFb_onlyChanges_fb _)
      (State.setReg_onlyChanges_regs _ VF _)) (by simp [writtenParts])
  | ldI | addI | ldF => exact onlyChanges_mono (s.setI_onlyChanges_index _) (by simp [writtenParts])
  | ldVxK => exact onlyChanges_mono (s.setWait_onlyChanges_wait _) (by simp [writtenParts])
  | ldDtVx => exact onlyChanges_mono (s.setDt_onlyChanges_dt _) (by simp [writtenParts])
  | ldStVx => exact onlyChanges_mono (s.setSt_onlyChanges_st _) (by simp [writtenParts])
  | ldB | stRegs => exact onlyChanges_mono (s.storeBytes_onlyChanges_mem _ _) (by simp [writtenParts])
  | ldRegs => exact onlyChanges_mono (s.setRegs_onlyChanges_regs _) (by simp [writtenParts])

theorem pc_mem_writtenParts (i : Instr) : Part.pc ∈ writtenParts i := by
  cases i with
  | _ => simp [writtenParts]

theorem exec_onlyChanges {i : Instr} {s t : State} (h : exec i s = .next t) :
    OnlyChanges (writtenParts i) s t := by
  obtain ⟨-, rfl⟩ := exec_eq_next.1 h
  refine onlyChanges_mono
    (onlyChanges_trans (effect_onlyChanges i s) ((effect i s).setPc_onlyChanges_pc _)) ?_
  simpa using pc_mem_writtenParts i

theorem drawByte_reg (s : State) (r : Reg) : s.drawByte.2.reg r = s.reg r :=
  drawByte_onlyChanges_rand s .regs (by decide) r

/-- The writes of an instruction reach only its destination registers. -/
theorem effect_otherRegsKept (i : Instr) (s : State) : OtherRegsKept (destRegs i) s (effect i s) := by
  intro r hr
  cases i with
  | ldImm | addImm | ldReg | orReg | andReg | xorReg | ldVxDt =>
    exact s.reg_setReg_ne _ (List.ne_of_not_mem_cons hr)
  | rnd x kk =>
    exact (State.reg_setReg_ne _ _ (List.ne_of_not_mem_cons hr)).trans (drawByte_reg s r)
  | addReg | subReg | subnReg | shr | shl =>
    simp only [destRegs, List.mem_cons, List.not_mem_nil, or_false, not_or] at hr
    simp only [effect, State.reg_setRegThenFlag, if_neg hr.1, if_neg hr.2]
  | drw => exact State.reg_setReg_ne _ _ (List.ne_of_not_mem_cons hr)
  | ldRegs x =>
    have hlt : ¬r ≤ x := by simpa [destRegs] using hr
    rw [effect, reg_setRegs_loaded, if_neg hlt]
  | cls | ret | call | sys | jp | jpV0 | seImm | sneImm | seReg | sneReg | skp | sknp | ldI | addI | ldF
  | ldVxK | ldDtVx | ldStVx | ldB | stRegs => rfl

theorem exec_otherRegsKept {i : Instr} {s t : State} (h : exec i s = .next t) :
    OtherRegsKept (destRegs i) s t := by
  obtain ⟨-, rfl⟩ := exec_eq_next.1 h
  exact effect_otherRegsKept i s

/-- Settles O12: an instruction's writes have the frame of its row, and the `pc` that follows is in
every row. -/
theorem everyInstructionWritesOnlyItsParts : Obligations.EveryInstructionWritesOnlyItsParts :=
  fun _ _ _ h => ⟨exec_onlyChanges h, exec_otherRegsKept h⟩

/-- Settles O11: the `pc` of the form of every instruction is the table's; `CALL` writes its push, and
a waiting block nothing. -/
theorem pcAfterEveryInstruction : Obligations.PcAfterEveryInstruction := by
  constructor
  · intro i s t h
    obtain ⟨-, rfl⟩ := exec_eq_next.1 h
    refine ⟨rfl, ?_⟩
    rintro nnn rfl
    rfl
  · intro op s t r hr h
    rcases executeWord_cases h with ⟨-, -, rfl⟩ | ⟨i, hrun, -, -⟩
    · rfl
    · simp [hrun] at hr

/-! ### `VF` -/

theorem flagByte_eq_zero_or_one (f : Bool) : flagByte f = 0 ∨ flagByte f = 1 := by
  cases f with
  | false => exact .inl rfl
  | true => exact .inr rfl

theorem State.reg_setRegThenFlag_VF (s : State) (x : Reg) (w : Byte) (f : Bool) :
    (s.setRegThenFlag x w f).reg VF = flagByte f := State.reg_setReg_self _ VF _

/-- Settles O13: the write of a flag byte to `VF` is the last write of a flag writer; the others keep
every register that is not a destination. -/
theorem onlyFlagWritersTouchVF : Obligations.OnlyFlagWritersTouchVF := by
  intro i s t h
  refine ⟨fun hflag => ?_, fun _ hdest => exec_otherRegsKept h VF hdest⟩
  obtain ⟨-, rfl⟩ := exec_eq_next.1 h
  cases i with
  | addReg | subReg | subnReg | shr | shl =>
    simp only [State.setPc_reg, effect, State.reg_setRegThenFlag_VF, flagByte_eq_zero_or_one]
  | drw => simp only [State.setPc_reg, effect, State.reg_setReg_self, flagByte_eq_zero_or_one]
  | _ => simp [writesFlag] at hflag

end Sys2Proof.Machine

/-! SUPPORT. The errors of the instructions (60_exceptions.md R180), each with its condition. -/

namespace Sys2Proof.Machine

open Sys2Proof.Claims

theorem firstFault_read_some {kind : AccessKind} {a n : Nat} {f : Fault}
    (h : firstFault (readFault kind) a n = some f) :
    (0 < n ∧ 4095 < a + n) ∧ f = .addressOutOfRange (max a 4095) kind := by
  rw [firstFault_read, Option.ite_none_right_eq_some] at h
  obtain ⟨hrange, hf⟩ := h
  exact ⟨hrange, (Option.some.inj hf).symm⟩

theorem firstFault_write_some {a n : Nat} {f : Fault} (h : firstFault writeFault a n = some f) :
    (a < 80 ∧ f = .writeProtected a) ∨
      (4095 < a + n ∧ f = .addressOutOfRange (max a 4095) .write) := by
  rw [firstFault_write] at h
  split at h
  case isTrue hfont => exact .inl ⟨hfont.2, (Option.some.inj h).symm⟩
  case isFalse =>
    rw [Option.ite_none_right_eq_some] at h
    obtain ⟨hrange, hf⟩ := h
    exact .inr ⟨hrange.2, (Option.some.inj hf).symm⟩

theorem mayRaise_of_faultOf {i : Instr} {s : State} {f : Fault} (h : faultOf i s = some f) :
    MayRaise i s f := by
  cases i with
  | ret =>
    obtain ⟨hempty, ⟨⟩⟩ := Option.ite_none_right_eq_some.1 h
    exact ⟨rfl, hempty, rfl⟩
  | call nnn =>
    obtain ⟨hfull, ⟨⟩⟩ := Option.ite_none_right_eq_some.1 h
    exact ⟨⟨nnn, rfl⟩, by simpa [State.stackFull] using hfull, rfl⟩
  | ldF x =>
    obtain ⟨hbig, ⟨⟩⟩ := Option.ite_none_right_eq_some.1 h
    exact ⟨x, rfl, rfl, hbig, rfl⟩
  | skp x =>
    obtain ⟨hbig, ⟨⟩⟩ := Option.ite_none_right_eq_some.1 h
    exact ⟨.inl ⟨x, rfl, rfl⟩, hbig, rfl⟩
  | sknp x =>
    obtain ⟨hbig, ⟨⟩⟩ := Option.ite_none_right_eq_some.1 h
    exact ⟨.inr ⟨x, rfl, rfl⟩, hbig, rfl⟩
  | drw x y n =>
    obtain ⟨⟨hpos, hpast⟩, rfl⟩ := firstFault_read_some h
    exact ⟨.inl ⟨x, y, n, rfl, hpos, hpast⟩, rfl⟩
  | ldRegs x =>
    obtain ⟨⟨-, hpast⟩, rfl⟩ := firstFault_read_some h
    exact ⟨.inr ⟨x, rfl, by omega⟩, rfl⟩
  | ldB x =>
    rcases firstFault_write_some h with ⟨hfont, rfl⟩ | ⟨hpast, rfl⟩
    · exact ⟨.inl ⟨x, rfl⟩, hfont, rfl⟩
    · exact ⟨.inl ⟨x, rfl, by omega⟩, rfl⟩
  | stRegs x =>
    rcases firstFault_write_some h with ⟨hfont, rfl⟩ | ⟨hpast, rfl⟩
    · exact ⟨.inr ⟨x, rfl⟩, hfont, rfl⟩
    · exact ⟨.inr ⟨x, rfl, by omega⟩, rfl⟩
  | _ => exact absurd h (Option.some_ne_none f).symm

/-- Settles O14: an error of an instruction is its own check's, and its form has no refusal. -/
theorem instructionsRaiseOnlyTheirCauses : Obligations.InstructionsRaiseOnlyTheirCauses :=
  fun i s => ⟨fun _ h => mayRaise_of_faultOf (exec_eq_fault.1 h), exec_ne_refused i s⟩

end Sys2Proof.Machine

/-! SUPPORT. Noninterference: a change of state that an instruction's check, writes and new `pc` do
not see is carried through its outcome. -/

namespace Sys2Proof.Machine

open Sys2Proof.Claims

theorem mapNext_outcome (f : State → State) (o : Option Fault) (t : State) :
    mapNext f (outcome o t) = outcome o (f t) := by
  cases o with
  | none => rfl
  | some e => rfl

/-- The argument all three changes share. -/
theorem exec_comm {f : State → State} {i : Instr} {s : State}
    (hfault : faultOf i (f s) = faultOf i s) (hpc : pcAfter (f s) i = pcAfter s i)
    (heffect : (effect i (f s)).setPc (pcAfter s i) = f ((effect i s).setPc (pcAfter s i))) :
    exec i (f s) = mapNext f (exec i s) := by
  rw [exec_eq, exec_eq, mapNext_outcome, hfault, hpc, heffect]

theorem drawByte_setSt (s : State) (w : Byte) :
    (s.setSt w).drawByte = (s.drawByte.1, s.drawByte.2.setSt w) := by
  cases hrand : s.randIn with
  | nil => rw [drawByte_nil s hrand, drawByte_nil (s.setSt w) hrand]; rfl
  | cons b rest => rw [drawByte_cons s b rest hrand, drawByte_cons (s.setSt w) b rest hrand]; rfl

theorem drawByte_withKeys (s : State) (keys : Vector Bool 16) :
    (withKeys keys s).drawByte = (s.drawByte.1, withKeys keys s.drawByte.2) := by
  cases hrand : s.randIn with
  | nil => rw [drawByte_nil s hrand, drawByte_nil (withKeys keys s) hrand]; rfl
  | cons b rest =>
    rw [drawByte_cons s b rest hrand, drawByte_cons (withKeys keys s) b rest hrand]; rfl

theorem exec_withRand {i : Instr} (hi : ∀ x kk, i ≠ .rnd x kk) (bytes : List Byte) (count : Nat)
    (s : State) : exec i (withRand bytes count s) = mapNext (withRand bytes count) (exec i s) := by
  cases i with
  | rnd x kk => exact absurd rfl (hi x kk)
  | _ => exact exec_comm rfl rfl rfl

theorem exec_setSt {i : Instr} (hi : ∀ x, i ≠ .ldStVx x) (w : Byte) (s : State) :
    exec i (s.setSt w) = mapNext (fun t => t.setSt w) (exec i s) := by
  cases i with
  | ldStVx x => exact absurd rfl (hi x)
  | rnd x kk =>
    exact exec_comm (f := fun t => t.setSt w) rfl rfl (by rw [effect, drawByte_setSt]; rfl)
  | _ => exact exec_comm (f := fun t => t.setSt w) rfl rfl rfl

theorem exec_withKeys {i : Instr} (hskp : ∀ x, i ≠ .skp x) (hsknp : ∀ x, i ≠ .sknp x)
    (keys : Vector Bool 16) (s : State) :
    exec i (withKeys keys s) = mapNext (withKeys keys) (exec i s) := by
  cases i with
  | skp x => exact absurd rfl (hskp x)
  | sknp x => exact absurd rfl (hsknp x)
  | rnd x kk => exact exec_comm rfl rfl (by rw [effect, drawByte_withKeys]; rfl)
  | _ => exact exec_comm rfl rfl rfl

/-! ### `LOAD` and `KEY_DOWN` by their cases -/

theorem loadCommand_fits {bytes : List Byte} (h : bytes.length ≤ 3583) (s : State) :
    loadCommand bytes s = (.ok bytes.length, s.storeBytes 0x200 bytes) := by
  rw [loadCommand, if_neg (by rw [config_memSize, config_progBase]; omega), config_progBase]

theorem loadCommand_too_large {bytes : List Byte} (h : 3583 < bytes.length) (s : State) :
    loadCommand bytes s = (.romTooLarge, s) := by
  rw [loadCommand, if_pos (by rw [config_memSize, config_progBase]; omega)]

theorem keyDownCommand_running {s : State} (h : s.wait = none) (k : Key) :
    keyDownCommand k s = s.setKey k true := by
  rw [keyDownCommand, h]

theorem keyDownCommand_waiting {s : State} {r : Reg} (h : s.wait = some r) (k : Key) :
    keyDownCommand k s = ((s.setKey k true).setReg r (BitVec.ofNat 8 k.val)).setWait none := by
  rw [keyDownCommand, h]

/-- The commands that run no instruction do not see `RAND_IN`. -/
theorem perform_withRand {c : Command} (hstep : c ≠ .step) (hexec : ∀ op, c ≠ .execute op)
    (bytes : List Byte) (count : Nat) (s : State) :
    perform c (withRand bytes count s) = mapNext (withRand bytes count) (perform c s) := by
  cases c with
  | step => exact absurd rfl hstep
  | execute op => exact absurd rfl (hexec op)
  | reset => rfl
  | load program =>
    rw [perform, perform]
    rcases Nat.lt_or_ge 3583 program.length with hlen | hlen
    · rw [loadCommand_too_large hlen, loadCommand_too_large hlen]; rfl
    · rw [loadCommand_fits hlen, loadCommand_fits hlen]; rfl
  | keyDown k =>
    rw [perform, perform]
    cases hw : s.wait with
    | none =>
      rw [keyDownCommand_running hw, keyDownCommand_running (s := withRand bytes count s) hw]
      rfl
    | some r =>
      rw [keyDownCommand_waiting hw, keyDownCommand_waiting (s := withRand bytes count s) hw]
      rfl
  | keyUp k => rfl
  | tick => rfl

theorem exec_rnd (x : Reg) (kk : Byte) (s : State) :
    exec (.rnd x kk) s = .next (s.drawByte.2.setReg x (s.drawByte.1 &&& kk)).advance := rfl

/-- Settles O16: `RND` draws the byte presented; the sequence is not seen by any other instruction or
by a command that runs none. -/
theorem onlyRndReadsRandIn : Obligations.OnlyRndReadsRandIn := by
  refine ⟨?rnd, ?others, ?commands⟩
  case rnd =>
    intro x kk w rest s hrand
    refine ⟨_, exec_rnd x kk s, ?_⟩
    rw [State.advance_reg, State.reg_setReg_self, drawByte_cons s w rest hrand]
  case others => exact fun i s bytes count hi => exec_withRand hi bytes count s
  case commands => exact fun c s bytes count hstep hexec => perform_withRand hstep hexec bytes count s

/-- Settles O17: `ST` is seen by no instruction, and `LD ST, Vx` writes over any change of it; the
keys are seen by the two key skips only. -/
theorem soundTimerAndKeysAreHiddenFromTheRest : Obligations.SoundTimerAndKeysAreHiddenFromTheRest := by
  intro i s
  constructor
  · intro w
    refine ⟨fun hi => exec_setSt hi w s, ?_⟩
    rintro x rfl
    rfl
  · exact fun keys hskp hsknp => exec_withKeys hskp hsknp keys s

end Sys2Proof.Machine

/-! SUPPORT. What an instruction can do to memory and to the stack, and the invariant (10_state.md
R29). -/

namespace Sys2Proof.Machine

/-- What an instruction can do to memory: nothing, or store bytes between the font and the end. -/
theorem exec_mem_cases {i : Instr} {s t : State} (h : exec i s = .next t) :
    t.mem = s.mem ∨ ∃ ws : List Byte, config.fontSize ≤ s.i.toNat ∧
      s.i.toNat + ws.length ≤ config.memSize ∧ t.mem = s.mem.writeBytes s.i.toNat ws := by
  cases i with
  | ldB x =>
    obtain ⟨⟨hlo, hhi⟩, rfl⟩ := execLdB_next.1 h
    exact .inr ⟨bcdDigits (s.reg x), hlo, hhi, rfl⟩
  | stRegs x =>
    obtain ⟨⟨hlo, hhi⟩, rfl⟩ := execStRegs_next.1 h
    exact .inr ⟨regsUpTo s x, hlo, by rwa [length_regsUpTo], rfl⟩
  | rnd x kk =>
    obtain ⟨bytes, count, hdraw⟩ := drawByte_frame s
    obtain rfl := Host.Outcome.next.inj h
    exact .inl (by rw [hdraw]; rfl)
  | ldRegs x =>
    obtain ⟨-, rfl⟩ := execLdRegs_next.1 h
    exact .inl (by rw [State.advance_mem, State.setRegs_mem])
  | _ =>
    obtain ⟨-, rfl⟩ := exec_eq_next.1 h
    exact .inl rfl

/-- What an instruction can do to the stack: nothing, the pop of `RET`, or the push of `CALL`. -/
theorem exec_stack_cases {i : Instr} {s t : State} (h : exec i s = .next t) :
    t.stack = s.stack ∨ (i = .ret ∧ s.stack = t.pc :: t.stack) ∨
      ∃ nnn, i = .call nnn ∧ s.stackFull = false ∧ t.stack = (s.pc + 2) :: s.stack := by
  cases i with
  | ret =>
    obtain ⟨w, rest, hstack, rfl⟩ := execRet_next.1 h
    exact .inr (.inl ⟨rfl, hstack⟩)
  | call nnn =>
    obtain ⟨hroom, rfl⟩ := execCall_next.1 h
    exact .inr (.inr ⟨nnn, rfl, hroom, rfl⟩)
  | _ => exact .inl (exec_onlyChanges h .stack (by simp [Claims.writtenParts]))

theorem exec_stackDepth {i : Instr} {s t : State} (h : exec i s = .next t) :
    t.stackDepth = s.stackDepth := by
  refine exec_onlyChanges h .param ?_
  cases i with
  | _ => simp [Claims.writtenParts]

theorem inv_of_same {s t : State} (h : s.Inv) (hmem : t.mem = s.mem) (hstack : t.stack = s.stack)
    (hdepth : t.stackDepth = s.stackDepth) : t.Inv where
  memWf := hmem ▸ h.memWf
  memInRange := hmem ▸ h.memInRange
  stackBounded := by simpa only [State.stackBounded, hstack, hdepth] using h.stackBounded

/-- Stores between the font and the end keep the invariant. -/
theorem storeBytes_inv {s : State} (h : s.Inv) {a : Nat} {ws : List Byte} (hlo : config.fontSize ≤ a)
    (hhi : a + ws.length ≤ config.memSize) : (s.storeBytes a ws).Inv where
  memWf := Memory.wf_writeBytes h.memWf a ws
  memInRange := Memory.inRange_writeBytes h.memInRange a ws (.inr hlo) (.inr hhi)
  stackBounded := h.stackBounded

theorem exec_stackBounded {i : Instr} {s t : State} (hs : s.stackBounded) (h : exec i s = .next t) :
    t.stackBounded := by
  intro n hn
  rw [exec_stackDepth h] at hn
  have hlen : s.stack.length ≤ n := hs n hn
  rcases exec_stack_cases h with hsame | ⟨-, hpop⟩ | ⟨nnn, -, hroom, hpush⟩
  · rwa [hsame]
  · rw [hpop, List.length_cons] at hlen
    omega
  · have hne : n ≠ s.stack.length := by
      rintro rfl
      simp [State.stackFull, hn] at hroom
    rw [hpush, List.length_cons]
    omega

theorem exec_inv {i : Instr} {s t : State} (hs : s.Inv) (h : exec i s = .next t) : t.Inv := by
  have hstack := exec_stackBounded hs.stackBounded h
  rcases exec_mem_cases h with hmem | ⟨ws, hlo, hhi, hmem⟩
  · exact ⟨hmem ▸ hs.memWf, hmem ▸ hs.memInRange, hstack⟩
  · have hstored := storeBytes_inv hs hlo hhi
    exact ⟨hmem ▸ hstored.memWf, hmem ▸ hstored.memInRange, hstack⟩

/-- Settles O18: no byte is listed and the stack is empty. -/
theorem invHoldsAtReset : Obligations.InvHoldsAtReset where
  memWf := Memory.wf_reset
  memInRange := by simp [State.reset]
  stackBounded := fun n _ => Nat.zero_le n

theorem resetCommand_inv (s : State) : (resetCommand s).Inv where
  memWf := Memory.wf_reset
  memInRange := invHoldsAtReset.memInRange
  stackBounded := fun n _ => Nat.zero_le n

theorem loadCommand_inv {s : State} (h : s.Inv) (bytes : List Byte) : (loadCommand bytes s).2.Inv := by
  rcases Nat.lt_or_ge 3583 bytes.length with hlen | hlen
  · rwa [loadCommand_too_large hlen]
  · rw [loadCommand_fits hlen]
    exact storeBytes_inv h (by decide) (by rw [config_memSize]; omega)

theorem keyDownCommand_inv {s : State} (h : s.Inv) (k : Key) : (keyDownCommand k s).Inv := by
  cases hw : s.wait with
  | none => exact keyDownCommand_running hw k ▸ inv_of_same h rfl rfl rfl
  | some r => exact keyDownCommand_waiting hw k ▸ inv_of_same h rfl rfl rfl

theorem perform_inv {c : Command} {s t : State} (hs : s.Inv) (h : perform c s = .next t) : t.Inv := by
  rcases perform_cases h with ⟨-, rfl⟩ | ⟨bytes, -, rfl⟩ | ⟨k, -, rfl⟩ | ⟨k, -, rfl⟩ | ⟨-, rfl⟩ |
    ⟨-, -, rfl⟩ | ⟨op, i, -, -, -, he⟩
  · exact resetCommand_inv s
  · exact loadCommand_inv hs bytes
  · exact keyDownCommand_inv hs k
  · exact inv_of_same hs rfl rfl rfl
  · exact inv_of_same hs rfl rfl rfl
  · exact hs
  · exact exec_inv hs he

/-- Settles O19: a step is one command, and every command keeps the invariant: `RESET` makes it, the
stores of instructions and of `LOAD` lie between the font and the end, `CALL` pushes only with room.
-/
theorem stepKeepsInv : Obligations.StepKeepsInv := by
  intro s t hs h
  rcases step_cases h with ⟨-, hstep⟩ | ⟨c, rest, -, hc⟩
  · exact perform_inv hs hstep
  · refine perform_inv ?_ hc
    exact inv_of_same hs rfl rfl rfl

/-- Where the invariant holds no byte of the font is listed, so each reads as at reset. -/
theorem byteAt_font {s : State} (h : s.Inv) {a : Nat} (ha : a < 80) :
    s.byteAt a = config.font.getD a 0 := by
  have hunlisted : ∀ c ∈ s.mem, c.1 ≠ a := by
    rintro c hc rfl
    exact absurd (h.memInRange c hc).1 (by rw [config_fontSize]; omega)
  rw [State.byteAt, Memory.read_unlisted s.mem a hunlisted, Memory.resetByte,
    if_pos (by simpa using ha), config_fontBase, Nat.sub_zero]

/-- Settles O20: the invariant fixes the font's bytes, and the step keeps the invariant (O19). -/
theorem fontIsNeverChanged : Obligations.FontIsNeverChanged := by
  intro s hs a ha
  refine ⟨byteAt_font hs ha, fun t h => ?_⟩
  rw [byteAt_font (stepKeepsInv s t hs h) ha, byteAt_font hs ha]

end Sys2Proof.Machine

/-! SUPPORT. The new `pc` by its kinds (40_dispatch.md R85), and the two facts about where it can go
(10_state.md R16, R29 (e)). -/

namespace Sys2Proof.Machine

open Sys2Proof.Claims

/-- The new `pc` of an instruction that is no transfer: 2 or 4 ahead, or where it is for a key skip
that raises. -/
def Ahead (s : State) (pc : Word) : Prop := pc = s.pc ∨ pc = s.pc + 2 ∨ pc = s.pc + 4

theorem ahead_two (s : State) : Ahead s (s.pc + 2) := .inr (.inl rfl)

theorem ahead_four (s : State) : Ahead s (s.pc + 4) := .inr (.inr rfl)

theorem ahead_ite {s : State} {c : Prop} [Decidable c] {p q : Word} (hp : Ahead s p) (hq : Ahead s q) :
    Ahead s (if c then p else q) := by
  split
  · exact hp
  · exact hq

theorem ahead_dite {s : State} {c : Prop} [Decidable c] {p : c → Word} (hp : ∀ h, Ahead s (p h)) :
    Ahead s (if h : c then p h else s.pc) := by
  split
  case isTrue h => exact hp h
  case isFalse => exact .inl rfl

theorem pcAfter_cases (i : Instr) (s : State) :
    Ahead s (pcAfter s i) ∨ (i = .ret ∧ pcAfter s i = s.stack.headD 0) ∨
    (∃ nnn, (i = .jp nnn ∨ i = .call nnn) ∧ (pcAfter s i).toNat = nnn.toNat) ∨
    ∃ nnn, i = .jpV0 nnn ∧ (pcAfter s i).toNat = nnn.toNat + (s.reg 0).toNat := by
  cases i with
  | ret => exact .inr (.inl ⟨rfl, rfl⟩)
  | jp nnn | call nnn =>
    have htarget : (BitVec.ofNat 16 nnn.toNat).toNat = nnn.toNat := by rw [BitVec.toNat_ofNat]; omega
    exact .inr (.inr (.inl ⟨nnn, by simp, htarget⟩))
  | jpV0 nnn =>
    refine .inr (.inr (.inr ⟨nnn, rfl, ?_⟩))
    show (BitVec.ofNat 16 (nnn.toNat + (s.reg 0).toNat)).toNat = _
    rw [BitVec.toNat_ofNat]
    omega
  | seImm | seReg => exact .inl (ahead_ite (ahead_four s) (ahead_two s))
  | sneImm | sneReg => exact .inl (ahead_ite (ahead_two s) (ahead_four s))
  | skp => exact .inl (ahead_dite fun _ => ahead_ite (ahead_four s) (ahead_two s))
  | sknp => exact .inl (ahead_dite fun _ => ahead_ite (ahead_two s) (ahead_four s))
  | _ => exact .inl (ahead_two s)

theorem exec_pc {i : Instr} {s t : State} (h : exec i s = .next t) : t.pc = pcAfter s i := by
  obtain ⟨-, rfl⟩ := exec_eq_next.1 h
  rfl

/-- A property of addresses that holds of every stack entry and of the address after a `CALL` holds of
every entry after an instruction. -/
theorem exec_stack_forall {P : Word → Prop} {i : Instr} {s t : State} (h : exec i s = .next t)
    (hs : ∀ w ∈ s.stack, P w) (hpush : P (s.pc + 2)) : ∀ w ∈ t.stack, P w := by
  intro w hw
  rcases exec_stack_cases h with hsame | ⟨-, hpop⟩ | ⟨nnn, -, -, hpushed⟩
  · exact hs w (hsame ▸ hw)
  · exact hs w (hpop ▸ List.mem_cons_of_mem _ hw)
  · rw [hpushed, List.mem_cons] at hw
    rcases hw with rfl | hw
    · exact hpush
    · exact hs w hw

/-- The same of the new `pc` of `RET`, which is an entry. -/
theorem exec_ret_pc {P : Word → Prop} {s t : State} (h : exec .ret s = .next t)
    (hs : ∀ w ∈ s.stack, P w) : P t.pc := by
  obtain ⟨w, rest, hstack, rfl⟩ := execRet_next.1 h
  exact hs w (hstack ▸ List.mem_cons_self)

/-- Settles O21: a way ahead starts where a fetch succeeds, a transfer goes at most to the largest
address plus the largest byte, and `RET` goes to an entry. -/
theorem pcNeverPassesTheLargestTarget : Obligations.PcNeverPassesTheLargestTarget := by
  intro i s t ⟨_, hentries⟩ hfetch h
  refine ⟨?pc, exec_stack_forall h hentries (by bv_omega)⟩
  case pc =>
    rcases pcAfter_cases i s with hahead | ⟨rfl, -⟩ | ⟨nnn, -, htarget⟩ | ⟨nnn, -, htarget⟩
    · rw [exec_pc h]
      rcases hahead with hpc | hpc | hpc
      · rw [hpc]; omega
      · rw [hpc]; bv_omega
      · rw [hpc]; bv_omega
    · exact exec_ret_pc h hentries
    · rw [exec_pc h, htarget]; omega
    · rw [exec_pc h, htarget]; omega

/-- Settles O22: a way ahead adds an even number to an even `pc`, and a wrap at 65536 keeps the
parity; a transfer goes to its even target, and `RET` to an entry. -/
theorem evenTargetsKeepPcEven : Obligations.EvenTargetsKeepPcEven := by
  intro i s t ⟨heven, hentries⟩ htarget h
  have htwo : (s.pc + 2).toNat % 2 = 0 := by bv_omega
  have hfour : (s.pc + 4).toNat % 2 = 0 := by bv_omega
  refine ⟨?pc, exec_stack_forall h hentries htwo⟩
  case pc =>
    rcases pcAfter_cases i s with hahead | ⟨rfl, -⟩ | ⟨nnn, hi, hpc⟩ | ⟨nnn, rfl, hpc⟩
    · rw [exec_pc h]
      rcases hahead with hpc | hpc | hpc
      · rw [hpc]; exact heven
      · rw [hpc]; exact htwo
      · rw [hpc]; exact hfour
    · exact exec_ret_pc h hentries
    · rw [exec_pc h, hpc]
      rcases hi with rfl | rfl
      · exact htarget
      · exact htarget
    · rw [exec_pc h, hpc]
      exact htarget

end Sys2Proof.Machine

/-! SUPPORT. The gate, the fetch and the decode of one `STEP` or `EXECUTE` (40_dispatch.md R81 to R83,
R87), each check by what it answers. -/

namespace Sys2Proof.Machine

open Sys2Proof.Claims

theorem executeWord_waiting {s : State} {r : Reg} (hr : s.wait = some r) (op : Word) :
    executeWord op s = .next s := by
  rw [executeWord, hr]

theorem stepCommand_waiting {s : State} {r : Reg} (hr : s.wait = some r) : stepCommand s = .next s := by
  rw [stepCommand, hr]

theorem executeWord_illegal {s : State} {op : Word} (hw : s.wait = none) (hd : decode op = none) :
    executeWord op s = .fault (.unimplementedOpcode op s.pc) := by
  rw [executeWord, hw, hd]
  rfl

/-- The fetch fails at the lowest byte that does not exist (R80). -/
theorem stepCommand_past_end {s : State} (hw : s.wait = none) (hpc : 4094 ≤ s.pc.toNat) :
    stepCommand s = .fault (.addressOutOfRange (max s.pc.toNat 4095) .fetch) := by
  rw [stepCommand, hw, fetch_eq, if_neg (by rw [config_memSize]; omega), config_memSize]
  rfl

/-- Settles O8: the gate stands before everything else in both commands. -/
theorem waitingBlockChangesNothing : Obligations.WaitingBlockChangesNothing := by
  intro s r hr
  refine ⟨executeWord_waiting hr, stepCommand_waiting hr, fun hp => ?_⟩
  rw [step_nil hp]
  exact stepCommand_waiting hr

/-- Settles O9: the gate, then the decode of the given word; memory is not read. -/
theorem executeRunsTheGivenWord : Obligations.ExecuteRunsTheGivenWord := by
  intro s op
  exact ⟨fun r hr => executeWord_waiting hr op,
    fun hw => ⟨executeWord_illegal hw, fun i hd => executeWord_running hw hd⟩⟩

/-- Settles O10: an empty line of commands means `STEP`. -/
theorem stepPerformsTheNextCommand : Obligations.StepPerformsTheNextCommand :=
  fun _ => ⟨step_nil, fun _ _ => step_cons⟩

/-- Settles O7: the step is `STEP`, whose fetch succeeds below 4094 with the big-endian word. -/
theorem stepChecksGateThenFetchThenDecode : Obligations.StepChecksGateThenFetchThenDecode := by
  intro s hp
  rw [step_nil hp]
  refine ⟨fun r hr => stepCommand_waiting hr, fun hw => ⟨?past, ?last, ?inside⟩⟩
  case past =>
    intro hpc
    have hmax : max s.pc.toNat 4095 = s.pc.toNat := by omega
    exact hmax ▸ stepCommand_past_end hw (by omega)
  case last =>
    intro hpc
    have hmax : max s.pc.toNat 4095 = 4095 := by omega
    exact hmax ▸ stepCommand_past_end hw (by omega)
  case inside =>
    intro hpc op hop
    have hf : fetch s = .ok op := by
      rw [fetch_of_lt (by rw [config_memSize]; omega), joinBytes_eq_ofNat, ← hop, BitVec.ofNat_toNat,
        BitVec.setWidth_eq]
    have hexec : perform .step s = executeWord op s := stepCommand_of_fetch hw hf
    rw [hexec]
    exact ⟨executeWord_illegal hw, fun i hd => executeWord_running hw hd⟩

end Sys2Proof.Machine

/-! SUPPORT. The commands that run no instruction (60_exceptions.md R200 to R203;
70_reset_and_hazards.md R220): what each answers and its frame. -/

namespace Sys2Proof.Machine

open Sys2Proof.Claims

theorem State.setKey_onlyChanges_keys (s : State) (k : Key) (down : Bool) :
    OnlyChanges [.keys] s (s.setKey k down) := by
  intro p hp
  have hsame : Same s s p := same_refl s p
  cases p with
  | keys => simp at hp
  | _ => exact hsame

/-- A command is taken off the line before it is performed. -/
theorem onlyChanges_pending (s : State) (rest : List Command) :
    OnlyChanges [.pending] s { s with pending := rest } := by
  intro p hp
  have hsame : Same s s p := same_refl s p
  cases p with
  | pending => simp at hp
  | _ => exact hsame

theorem State.key_setKey_self (s : State) (k : Key) (down : Bool) : (s.setKey k down).key k = down := by
  rw [State.key_setKey, if_pos rfl]

theorem State.key_setKey_ne (s : State) {k q : Key} (down : Bool) (h : q ≠ k) :
    (s.setKey k down).key q = s.key q := by
  rw [State.key_setKey, if_neg h]

theorem toNat_ticked (w : Byte) : (ticked w).toNat = w.toNat - 1 := by
  unfold ticked
  split
  case isTrue h => rw [h]; rfl
  case isFalse h => bv_omega

theorem tickCommand_onlyChanges (s : State) : OnlyChanges [.dt, .st] s (tickCommand s) :=
  onlyChanges_trans (s.setDt_onlyChanges_dt _) (State.setSt_onlyChanges_st _ _)

/-- Settles O54: one write of the key's bit; one write of each timer. -/
theorem keyUpAndTickDoOnlyTheirPart : Obligations.KeyUpAndTickDoOnlyTheirPart := by
  intro s
  constructor
  · intro k
    exact ⟨keyUpCommand k s, rfl, s.key_setKey_self k false, fun q hq => s.key_setKey_ne false hq,
      s.setKey_onlyChanges_keys k false⟩
  · exact ⟨tickCommand s, rfl, toNat_ticked s.dt, toNat_ticked s.st, tickCommand_onlyChanges s⟩

/-! ### `KEY_DOWN` (R200) -/

theorem keyDownCommand_key (k q : Key) (s : State) :
    (keyDownCommand k s).key q = if q = k then true else s.key q := by
  cases hw : s.wait with
  | none => rw [keyDownCommand_running hw, State.key_setKey]
  | some r => rw [keyDownCommand_waiting hw, State.setWait_key, State.setReg_key, State.key_setKey]

theorem keyDownCommand_wait (k : Key) (s : State) : (keyDownCommand k s).wait = none := by
  cases hw : s.wait with
  | none => rw [keyDownCommand_running hw, State.setKey_wait, hw]
  | some r => rw [keyDownCommand_waiting hw, State.setWait_wait]

theorem keyDownCommand_reg_waiting {s : State} {r : Reg} (hr : s.wait = some r) (k : Key) :
    (keyDownCommand k s).reg r = BitVec.ofNat 8 k.val := by
  rw [keyDownCommand_waiting hr, State.setWait_reg, State.reg_setReg_self]

theorem keyDownCommand_reg_other {s : State} {q : Reg} (hq : s.wait ≠ some q) (k : Key) :
    (keyDownCommand k s).reg q = s.reg q := by
  cases hw : s.wait with
  | none => rw [keyDownCommand_running hw, State.setKey_reg]
  | some r =>
    have hne : q ≠ r := fun heq => hq (heq ▸ hw)
    rw [keyDownCommand_waiting hw, State.setWait_reg, State.reg_setReg_ne _ _ hne, State.setKey_reg]

theorem keyDownCommand_onlyChanges (k : Key) (s : State) :
    OnlyChanges [.keys, .regs, .wait] s (keyDownCommand k s) := by
  cases hw : s.wait with
  | none =>
    rw [keyDownCommand_running hw]
    exact onlyChanges_mono (s.setKey_onlyChanges_keys k true) (by decide)
  | some r =>
    rw [keyDownCommand_waiting hw]
    exact onlyChanges_trans (s.setKey_onlyChanges_keys k true)
      (onlyChanges_trans (State.setReg_onlyChanges_regs _ r _) (State.setWait_onlyChanges_wait _ none))

theorem toNat_key_byte (k : Key) : (BitVec.ofNat 8 k.val).toNat = k.val := by
  rw [BitVec.toNat_ofNat]
  omega

/-- Settles O55: the step is `KEY_DOWN` on the state with the rest of the line. -/
theorem keyDownSetsTheKeyAndEndsTheWait : Obligations.KeyDownSetsTheKeyAndEndsTheWait := by
  intro s k rest hp
  have hframe : OnlyChanges [.pending, .keys, .regs, .wait] s
      (keyDownCommand k { s with pending := rest }) :=
    onlyChanges_trans (onlyChanges_pending s rest) (keyDownCommand_onlyChanges k _)
  refine ⟨_, step_cons hp, ?key, ?otherKeys, keyDownCommand_wait k _, ?line, ?waiting, ?running, ?frame⟩
  case key => rw [keyDownCommand_key, if_pos rfl]
  case otherKeys =>
    intro q hq
    rw [keyDownCommand_key, if_neg hq]
    rfl
  case line => exact keyDownCommand_onlyChanges k { s with pending := rest } .pending (by decide)
  case waiting =>
    intro r hr
    refine ⟨?_, fun q hq => keyDownCommand_reg_other ?_ k⟩
    · rw [keyDownCommand_reg_waiting (s := { s with pending := rest }) hr, toNat_key_byte]
    · intro heq
      exact List.ne_of_not_mem_cons hq (Option.some.inj (heq.symm.trans hr))
  case running =>
    intro hw q
    exact keyDownCommand_reg_other (by simp [hw]) k
  case frame => exact onlyChanges_mono hframe (by decide)

/-! ### `TICK`s in a row (R202) -/

/-- Settles O56, by induction on the number of `TICK`s: the first takes one from each timer and leaves
the others lined up. -/
theorem ticksCountDownToZero : Obligations.TicksCountDownToZero := by
  intro n
  induction n with
  | zero =>
    exact fun s _ => ⟨s, rfl, rfl, rfl, onlyChanges_mono (onlyChanges_refl s) (List.nil_subset _)⟩
  | succ n ih =>
    intro s hp
    have hfirst := step_cons hp
    obtain ⟨t, hrun, hdt, hst, hframe⟩ :=
      ih (tickCommand { s with pending := List.replicate n .tick }) rfl
    refine ⟨t, (run_succ hfirst n).trans hrun, ?dt, ?st, ?frame⟩
    case dt =>
      have hone : (ticked s.dt).toNat - n = s.dt.toNat - (n + 1) := by rw [toNat_ticked]; omega
      exact hdt.trans hone
    case st =>
      have hone : (ticked s.st).toNat - n = s.st.toNat - (n + 1) := by rw [toNat_ticked]; omega
      exact hst.trans hone
    case frame =>
      exact onlyChanges_mono (onlyChanges_trans (onlyChanges_pending s _)
        (onlyChanges_trans (tickCommand_onlyChanges _) hframe)) (by decide)

/-! ### `LOAD` (R203) -/

theorem State.byteAt_storeBytes (s : State) (a b : Nat) (ws : List Byte) :
    (s.storeBytes a ws).byteAt b =
      if a ≤ b ∧ b < a + ws.length then ws.getD (b - a) 0 else s.byteAt b :=
  Memory.read_writeBytes s.mem a b ws

theorem State.byteAt_storeBytes_inside (s : State) (a : Nat) {ws : List Byte} {k : Nat}
    (h : k < ws.length) : (s.storeBytes a ws).byteAt (a + k) = ws.getD k 0 := by
  rw [State.byteAt_storeBytes, if_pos (by omega), Nat.add_sub_cancel_left]

theorem State.byteAt_storeBytes_outside (s : State) {a b : Nat} {ws : List Byte}
    (h : b < a ∨ a + ws.length ≤ b) : (s.storeBytes a ws).byteAt b = s.byteAt b :=
  Memory.read_writeBytes_outside s.mem a b ws h

theorem loadCommand_onlyChanges (bytes : List Byte) (s : State) :
    OnlyChanges [.mem] s (loadCommand bytes s).2 := by
  rcases Nat.lt_or_ge 3583 bytes.length with hlen | hlen
  · rw [loadCommand_too_large hlen]
    exact onlyChanges_mono (onlyChanges_refl s) (List.nil_subset _)
  · rw [loadCommand_fits hlen]
    exact s.storeBytes_onlyChanges_mem 0x200 bytes

/-- Settles O57: the step is `LOAD` on the state with the rest of the line, which stores the bytes or
nothing. -/
theorem loadCopiesTheProgram : Obligations.LoadCopiesTheProgram := by
  intro s bytes rest hp
  refine ⟨_, step_cons hp, ?line, ?frame, ?fits, ?tooLarge⟩
  case line => exact loadCommand_onlyChanges bytes { s with pending := rest } .pending (by decide)
  case frame =>
    exact onlyChanges_mono (onlyChanges_trans (onlyChanges_pending s rest)
      (loadCommand_onlyChanges bytes _)) (by decide)
  case fits =>
    intro hlen
    rw [loadCommand_fits hlen, loadCommand_fits hlen]
    exact ⟨rfl, fun k hk => State.byteAt_storeBytes_inside _ 0x200 hk,
      fun a ha => State.byteAt_storeBytes_outside { s with pending := rest } ha⟩
  case tooLarge =>
    intro hlen
    rw [loadCommand_too_large hlen, loadCommand_too_large hlen]
    exact ⟨rfl, fun _ => rfl⟩

/-! ### `RESET` (70_reset_and_hazards.md R221) -/

theorem resetByte_above_font {a : Nat} (h : 80 ≤ a) : Memory.resetByte a = 0 := by
  rw [Memory.resetByte, if_neg (by simpa using h)]

/-- Settles O58: each piece is the reset state's, and memory has no byte listed. -/
theorem resetGivesTheResetState : Obligations.ResetGivesTheResetState := by
  intro s rest hp
  exact ⟨_, step_cons hp, State.reset_reg, rfl, rfl, rfl, rfl, rfl, State.reset_key, rfl, pixel_reset,
    fun a ha => byteAt_font (resetCommand_inv _) ha, fun a ha => resetByte_above_font ha,
    rfl, rfl, rfl, rfl⟩

end Sys2Proof.Machine

/-! SUPPORT. The wait latch (44_keywait.md R160 to R162): `LD Vx, K` alone sets it, `KEY_DOWN` and
`RESET` alone clear it. -/

namespace Sys2Proof.Machine

open Sys2Proof.Claims

theorem exec_ldVxK (x : Reg) (s : State) : exec (.ldVxK x) s = .next (s.setWait (some x)).advance := rfl

/-- What an instruction can do to the latch: nothing, or be `LD Vx, K`. -/
theorem exec_wait_cases {i : Instr} {s t : State} (h : exec i s = .next t) :
    ((∀ x, i ≠ .ldVxK x) ∧ t.wait = s.wait) ∨
      ∃ x, i = .ldVxK x ∧ t = (s.setWait (some x)).advance := by
  cases i with
  | ldVxK x => exact .inr ⟨x, rfl, (Host.Outcome.next.inj h).symm⟩
  | _ => exact .inl ⟨by simp, exec_onlyChanges h .wait (by simp [writtenParts])⟩

/-- Settles O47: each command from the waiting state by its own law. -/
theorem ldVxKWaitsForKeyDown : Obligations.LdVxKWaitsForKeyDown := by
  intro x s
  have hw : ((s.setWait (some x)).advance).wait = some x := rfl
  refine ⟨_, exec_ldVxK x s, hw, rfl, onlyChanges_advance (s.setWait_onlyChanges_wait _),
    executeWord_waiting hw, stepCommand_waiting hw, ?keyUp, ?tick, ?keyDown, ⟨_, rfl, rfl⟩⟩
  case keyUp => exact fun k => ⟨_, rfl, rfl, State.key_setKey_self _ k false, rfl⟩
  case tick => exact ⟨_, rfl, rfl, toNat_ticked _, toNat_ticked _⟩
  case keyDown =>
    intro k
    refine ⟨_, rfl, keyDownCommand_wait k _, ?_, ?_, ?_, ?_⟩
    · rw [keyDownCommand_reg_waiting hw, toNat_key_byte]
    · rw [keyDownCommand_key, if_pos rfl]
    · intro r hr
      refine keyDownCommand_reg_other (fun heq => ?_) k
      exact List.ne_of_not_mem_cons hr (Option.some.inj (hw.symm.trans heq)).symm
    · exact keyDownCommand_onlyChanges k _ .pc (by decide)

/-- A command that keeps the wait, from a waiting state: it answers, and keeps the latch, the line of
commands, `pc` and the registers. -/
theorem perform_keepsWaiting {c : Command} {s : State} {r : Reg} (hc : KeepsWaiting c)
    (hr : s.wait = some r) : ∃ t, perform c s = .next t ∧ t.wait = some r ∧ t.pending = s.pending ∧
      t.pc = s.pc ∧ ∀ q, t.reg q = s.reg q := by
  cases c with
  | keyDown k => exact hc.elim
  | reset => exact hc.elim
  | execute op => exact ⟨s, executeWord_waiting hr op, hr, rfl, rfl, fun _ => rfl⟩
  | step => exact ⟨s, stepCommand_waiting hr, hr, rfl, rfl, fun _ => rfl⟩
  | keyUp k => exact ⟨_, rfl, hr, rfl, rfl, fun _ => rfl⟩
  | tick => exact ⟨_, rfl, hr, rfl, rfl, fun _ => rfl⟩
  | load bytes =>
    have hframe := loadCommand_onlyChanges bytes s
    exact ⟨_, rfl, (hframe .wait (by decide)).trans hr, hframe .pending (by decide),
      hframe .pc (by decide), hframe .regs (by decide)⟩

/-- Settles O49, by induction on the line of commands, and on the number of steps with none lined up.
-/
theorem withoutKeyDownTheWaitNeverEnds : Obligations.WithoutKeyDownTheWaitNeverEnds := by
  constructor
  · intro cs
    induction cs with
    | nil => exact fun s r _ hr hp => ⟨s, rfl, hr, hp, rfl, fun _ => rfl⟩
    | cons c rest ih =>
      intro s r hcs hr hp
      obtain ⟨t, ht, htwait, htline, htpc, htregs⟩ := perform_keepsWaiting
        (s := { s with pending := rest }) (hcs c List.mem_cons_self) hr
      obtain ⟨u, hrun, huwait, huline, hupc, huregs⟩ :=
        ih t r (fun d hd => hcs d (List.mem_cons_of_mem c hd)) htwait htline
      have hstep : step s = .next t := (step_cons hp).trans ht
      exact ⟨u, (run_succ hstep rest.length).trans hrun, huwait, huline, hupc.trans htpc,
        fun q => (huregs q).trans (htregs q)⟩
  · intro n s r hr hp
    have hstep : step s = .next s := (step_nil hp).trans (stepCommand_waiting hr)
    induction n with
    | zero => rfl
    | succ n ih => exact (run_succ hstep n).trans ih

/-- A wait starts only by `LD Vx, K`, in `EXECUTE` or `STEP`, with `pc` moved on. -/
theorem perform_starts_wait {c : Command} {s t : State} (h : perform c s = .next t)
    (hw : s.wait = none) : t.wait = none ∨ ∃ x, t.wait = some x ∧ t.pc = s.pc + 2 ∧
      ((∃ op, c = .execute op ∧ decode op = some (.ldVxK x)) ∨
        (c = .step ∧ ∃ op, fetch s = .ok op ∧ decode op = some (.ldVxK x))) := by
  rcases perform_cases h with ⟨-, rfl⟩ | ⟨bytes, -, rfl⟩ | ⟨k, -, rfl⟩ | ⟨k, -, rfl⟩ | ⟨-, rfl⟩ |
    ⟨-, ⟨r, hr⟩, -⟩ | ⟨op, i, hc, -, hd, he⟩
  · exact .inl rfl
  · exact .inl ((loadCommand_onlyChanges bytes s .wait (by decide)).trans hw)
  · exact .inl (keyDownCommand_wait k s)
  · exact .inl hw
  · exact .inl hw
  · simp [hw] at hr
  · rcases exec_wait_cases he with ⟨-, hwait⟩ | ⟨x, rfl, rfl⟩
    · exact .inl (hwait.trans hw)
    · refine .inr ⟨x, rfl, rfl, ?_⟩
      rcases hc with hc | ⟨hc, hf⟩
      · exact .inl ⟨op, hc, hd⟩
      · exact .inr ⟨hc, op, hf, hd⟩

/-- Settles O48: each row of the table is the law of its command. -/
theorem waitLatchFollowsItsTable : Obligations.WaitLatchFollowsItsTable := by
  intro c s t h
  refine ⟨perform_starts_wait h, ?execute, ?keyDown, ?keyUp, ?tick, ?reset, ?waiting⟩
  case execute =>
    rintro op i hw rfl hd
    have he : exec i s = .next t := (executeWord_running hw hd).symm.trans h
    refine ⟨he, fun hi => ?_⟩
    rcases exec_wait_cases he with ⟨-, hwait⟩ | ⟨x, hx, -⟩
    · exact hwait.trans hw
    · exact absurd hx (hi x)
  case keyDown =>
    rintro k rfl
    obtain rfl := Host.Outcome.next.inj h
    exact ⟨keyDownCommand_wait k s, by rw [keyDownCommand_key, if_pos rfl],
      fun r => ⟨fun hr => keyDownCommand_reg_waiting hr k, fun hr => keyDownCommand_reg_other hr k⟩⟩
  case keyUp =>
    rintro k rfl
    obtain rfl := Host.Outcome.next.inj h
    exact ⟨rfl, s.key_setKey_self k false⟩
  case tick =>
    rintro rfl
    obtain rfl := Host.Outcome.next.inj h
    exact ⟨rfl, toNat_ticked s.dt, toNat_ticked s.st⟩
  case reset =>
    rintro rfl
    obtain rfl := Host.Outcome.next.inj h
    exact ⟨rfl, rfl⟩
  case waiting =>
    intro r hr
    constructor
    · rintro (⟨op, rfl⟩ | rfl)
      · exact Host.Outcome.next.inj (h.symm.trans (executeWord_waiting hr op))
      · exact Host.Outcome.next.inj (h.symm.trans (stepCommand_waiting hr))
    · intro hc
      obtain ⟨u, hu, hwait, -⟩ := perform_keepsWaiting hc hr
      obtain rfl := Host.Outcome.next.inj (h.symm.trans hu)
      exact hwait

end Sys2Proof.Machine

/-! SUPPORT. Control flow (41_control_flow.md R100 to R107, 46_sys.md R175). An instruction that
raises no error and writes `pc` alone moves it as the table of 40_dispatch.md R85 says. -/

namespace Sys2Proof.Machine

open Sys2Proof.Claims

theorem onlyMovesPc_of_faultOf_none {i : Instr} {s : State} {pc : Word} (hf : faultOf i s = none)
    (hparts : writtenParts i = [.pc]) (hpc : pcAfter s i = pc) : OnlyMovesPc i s pc := by
  have h := exec_eq_next.2 ⟨hf, rfl⟩
  exact ⟨_, h, (exec_pc h).trans hpc, hparts ▸ exec_onlyChanges h⟩

/-- The `STEP` after a transfer past the last word (R109). -/
theorem step_past_end {t : State} (hw : t.wait = none) (hp : t.pending = []) (hpc : 4094 ≤ t.pc.toNat) :
    step t = .fault (.addressOutOfRange (max t.pc.toNat 4095) .fetch) :=
  (step_nil hp).trans (stepCommand_past_end hw hpc)

theorem exec_jp (nnn : Addr12) (s : State) : exec (.jp nnn) s = .next (s.setPc (absolute nnn)) := rfl

theorem exec_jpV0 (nnn : Addr12) (s : State) :
    exec (.jpV0 nnn) s = .next (s.setPc (absolutePlusV0 nnn s)) := rfl

theorem toNat_absolutePlusV0 (nnn : Addr12) (s : State) :
    (absolutePlusV0 nnn s).toNat = nnn.toNat + (s.reg V0).toNat := by
  rw [absolutePlusV0_eq_ofNat, BitVec.toNat_ofNat]
  omega

/-- Settles O23: one write of `pc`, and an address has at most 4095 as a number. -/
theorem jpSetsPc : Obligations.JpSetsPc := by
  intro nnn s
  refine ⟨_, exec_jp nnn s, toNat_absolute nnn, s.setPc_onlyChanges_pc _, fun hw hp hpast => ?_⟩
  have hstep := step_past_end (t := s.setPc (absolute nnn)) hw hp
    (by rwa [State.setPc_pc, toNat_absolute])
  have hmax : max nnn.toNat 4095 = 4095 := by omega
  rwa [State.setPc_pc, toNat_absolute, hmax] at hstep

/-- Settles O24: one write of `pc`; a sum of an address and a byte does not wrap. -/
theorem jpV0AddsRegisterZero : Obligations.JpV0AddsRegisterZero := by
  intro nnn s
  refine ⟨_, exec_jpV0 nnn s, toNat_absolutePlusV0 nnn s, s.setPc_onlyChanges_pc _,
    fun hw hp hpast => ?_⟩
  have hstep := step_past_end (t := s.setPc (absolutePlusV0 nnn s)) hw hp
    (by rwa [State.setPc_pc, toNat_absolutePlusV0])
  rwa [State.setPc_pc, toNat_absolutePlusV0] at hstep

theorem stackFull_eq_true (s : State) : s.stackFull = true ↔ s.stackDepth = some s.stack.length := by
  simp [State.stackFull]

/-- Settles O25: the test of the bound, then the push and the jump. -/
theorem callPushesTheNextAddress : Obligations.CallPushesTheNextAddress := by
  intro nnn s
  constructor
  · intro hroom
    have hfull : s.stackFull = false := by rwa [← Bool.not_eq_true, stackFull_eq_true]
    have h := (execCall_next (nnn := nnn)).2 ⟨hfull, rfl⟩
    exact ⟨_, h, rfl, toNat_absolute nnn,
      onlyChanges_trans (s.setStack_onlyChanges_stack _) (State.setPc_onlyChanges_pc _ _)⟩
  · intro hfull
    exact exec_eq_fault.2 (if_pos ((stackFull_eq_true s).2 hfull))

/-- Settles O26: the pop is one write of the stack, the entry popped is the new `pc`. -/
theorem retPopsTheReturnAddress : Obligations.RetPopsTheReturnAddress := by
  intro s
  constructor
  · intro w rest hstack
    have h := execRet_next.2 ⟨w, rest, hstack, rfl⟩
    exact ⟨_, h, rfl, rfl,
      onlyChanges_trans (s.setStack_onlyChanges_stack _) (State.setPc_onlyChanges_pc _ _)⟩
  · intro hempty
    exact exec_eq_fault.2 (if_pos hempty)

/-- Settles O27: the entry `CALL` pushed is on top when `RET` pops, and the two together write `pc`
and put the stack back. -/
theorem callThenRetComesBack : Obligations.CallThenRetComesBack := by
  intro nnn s t h
  obtain ⟨-, rfl⟩ := execCall_next.1 h
  have hret := execRet_next.2 ⟨s.pc + 2, s.stack,
    (rfl : ((s.push (s.pc + 2)).setPc (absolute nnn)).stack = _), rfl⟩
  have hframe := onlyChanges_trans (exec_onlyChanges h) (exec_onlyChanges (i := .ret) hret)
  refine ⟨_, hret, rfl, rfl, fun p hp => ?_⟩
  cases p with
  | stack => rfl
  | pc => simp at hp
  | _ => exact hframe _ (by simp [writtenParts])

/-- Settles O29: neither raises, and of the two the one whose comparison holds is taken. -/
theorem registerSkipsCompareAndSkip : Obligations.RegisterSkipsCompareAndSkip := by
  intro x y s
  constructor
  · intro heq
    exact ⟨onlyMovesPc_of_faultOf_none rfl rfl (if_pos heq),
      onlyMovesPc_of_faultOf_none rfl rfl (if_pos heq)⟩
  · intro hne
    exact ⟨onlyMovesPc_of_faultOf_none rfl rfl (if_neg hne),
      onlyMovesPc_of_faultOf_none rfl rfl (if_neg hne)⟩

/-- Settles O30: `SYS` raises nothing, writes nothing else and is no transfer. -/
theorem sysOnlyAdvancesPc : Obligations.SysOnlyAdvancesPc :=
  fun _ _ => onlyMovesPc_of_faultOf_none rfl rfl rfl

/-- A value names the key of its own number. -/
theorem key_of_namedKeyIs {s : State} {w : Byte} {down : Bool} (h : NamedKeyIs s w down) :
    ∃ hlt : w.toNat < 16, s.key ⟨w.toNat, hlt⟩ = down := by
  obtain ⟨k, hk, hlevel⟩ := h
  have hlt : w.toNat < 16 := hk ▸ k.isLt
  obtain rfl : k = ⟨w.toNat, hlt⟩ := Fin.ext hk
  exact ⟨hlt, hlevel⟩

/-- Settles O46: where the value names a key both checks pass and the two skips test its level; above
15 both checks fail. -/
theorem keySkipsTestTheNamedKey : Obligations.KeySkipsTestTheNamedKey := by
  intro x s
  refine ⟨?down, ?up, fun hbig => ⟨exec_eq_fault.2 (if_pos hbig), exec_eq_fault.2 (if_pos hbig)⟩⟩
  case down =>
    intro h
    obtain ⟨hlt, hdown⟩ := key_of_namedKeyIs h
    have hok : ¬15 < (s.reg x).toNat := by omega
    exact ⟨onlyMovesPc_of_faultOf_none (if_neg hok) rfl ((dif_pos hlt).trans (if_pos hdown)),
      onlyMovesPc_of_faultOf_none (if_neg hok) rfl ((dif_pos hlt).trans (if_pos hdown))⟩
  case up =>
    intro h
    obtain ⟨hlt, hup⟩ := key_of_namedKeyIs h
    have hok : ¬15 < (s.reg x).toNat := by omega
    have hnot : ¬s.key ⟨(s.reg x).toNat, hlt⟩ = true := by rw [hup]; decide
    exact ⟨onlyMovesPc_of_faultOf_none (if_neg hok) rfl ((dif_pos hlt).trans (if_neg hnot)),
      onlyMovesPc_of_faultOf_none (if_neg hok) rfl ((dif_pos hlt).trans (if_neg hnot))⟩

end Sys2Proof.Machine

/-! SUPPORT. Arithmetic, logic and random (42_alu.md R121 to R133), and the index register
(43_index_timer_key.md R141, R145): each is one register write, a result and then a flag, or one write
of `I`; what is left is the value as a number. -/

namespace Sys2Proof.Machine

open Sys2Proof.Claims

/-- Settles O32: both sums are those of bit vectors, which wrap at their width. -/
theorem immediateAndIndexAddsWrapWithoutFlag : Obligations.ImmediateAndIndexAddsWrapWithoutFlag := by
  intro x kk s
  constructor
  · exact ⟨s.reg x + kk, BitVec.toNat_add _ _, writesOneReg_of_setReg_advance rfl⟩
  · refine ⟨_, rfl, ?_, rfl, onlyChanges_advance (s.setI_onlyChanges_index _)⟩
    show (s.i + (s.reg x).setWidth 16).toNat = (s.i.toNat + (s.reg x).toNat) % 65536
    rw [BitVec.toNat_add, BitVec.toNat_setWidth_of_le (by decide)]

/-- Settles O33: each result is the bitwise operation on the two registers. -/
theorem logicIsBitwiseWithoutFlag : Obligations.LogicIsBitwiseWithoutFlag := by
  intro x y s
  exact ⟨s.reg x ||| s.reg y, s.reg x &&& s.reg y, s.reg x ^^^ s.reg y,
    writesOneReg_of_setReg_advance rfl, writesOneReg_of_setReg_advance rfl,
    writesOneReg_of_setReg_advance rfl,
    fun k => ⟨BitVec.getLsbD_or, BitVec.getLsbD_and, BitVec.getLsbD_xor⟩⟩

/-- A result and then a flag, for every result and every flag (40_dispatch.md R86 (b)). -/
theorem writesRegThenFlag_of_setRegThenFlag {i : Instr} {s : State} {x : Reg} {w : Byte} {f : Bool}
    {n : Nat} {flag : Prop} (hi : exec i s = .next (s.setRegThenFlag x w f).advance)
    (hw : w.toNat = n) (hf : f = true ↔ flag) : WritesRegThenFlag i s x n flag := by
  have hVF : (s.setRegThenFlag x w f).advance.reg VF = flagByte f := s.reg_setRegThenFlag_VF x w f
  refine ⟨_, hi, ?result, ?set, ?clear, ?others, rfl,
    onlyChanges_advance (s.setRegThenFlag_onlyChanges_regs x w f)⟩
  case result =>
    intro hx
    rw [State.advance_reg, State.reg_setRegThenFlag, if_neg hx, if_pos rfl, hw]
  case set =>
    intro hflag
    rw [hVF, hf.2 hflag]
    rfl
  case clear =>
    intro hflag
    rw [hVF, Bool.eq_false_iff.2 fun h => hflag (hf.1 h)]
    rfl
  case others =>
    intro r hr
    simp only [List.mem_cons, List.not_mem_nil, or_false, not_or] at hr
    rw [State.advance_reg, State.reg_setRegThenFlag, if_neg hr.2, if_neg hr.1]

theorem carryOut_iff (p q : Byte) : carryOut p q = true ↔ 255 < p.toNat + q.toNat := decide_eq_true_iff

theorem noBorrow_iff (p q : Byte) : noBorrow p q = true ↔ q.toNat ≤ p.toNat := decide_eq_true_iff

theorem droppedRight_iff (p : Byte) : droppedRight p = true ↔ p.toNat % 2 = 1 := by
  rw [droppedRight, BitVec.getLsbD, Nat.testBit_zero, decide_eq_true_iff]

theorem droppedLeft_iff (p : Byte) : droppedLeft p = true ↔ 128 ≤ p.toNat := by
  rw [droppedLeft, BitVec.getLsbD, Nat.testBit_eq_decide_div_mod_eq, decide_eq_true_iff]
  omega

theorem toNat_sub_byte (p q : Byte) : (p - q).toNat = (p.toNat + 256 - q.toNat) % 256 := by
  rw [BitVec.toNat_sub]
  omega

theorem toNat_half (p : Byte) : (p >>> 1).toNat = p.toNat / 2 := by
  rw [BitVec.toNat_ushiftRight, Nat.shiftRight_eq_div_pow, Nat.pow_one]

theorem toNat_double (p : Byte) : (p <<< 1).toNat = p.toNat * 2 % 256 := by
  rw [BitVec.toNat_shiftLeft, Nat.shiftLeft_eq, Nat.pow_one]

/-- Settles O34: the sum and its carry. -/
theorem addRegisterReportsCarry : Obligations.AddRegisterReportsCarry :=
  fun _ _ _ => writesRegThenFlag_of_setRegThenFlag rfl (BitVec.toNat_add _ _) (carryOut_iff _ _)

/-- Settles O35: the two differences, each with its own minuend in the test for a borrow. -/
theorem subtractionsReportNoBorrow : Obligations.SubtractionsReportNoBorrow :=
  fun _ _ _ => ⟨writesRegThenFlag_of_setRegThenFlag rfl (toNat_sub_byte _ _) (noBorrow_iff _ _),
    writesRegThenFlag_of_setRegThenFlag rfl (toNat_sub_byte _ _) (noBorrow_iff _ _)⟩

/-- Settles O36: half and double of `V[x]`, with bit 0 and bit 7 as the flag. -/
theorem shiftsReportTheDroppedBit : Obligations.ShiftsReportTheDroppedBit :=
  fun _ _ _ => ⟨writesRegThenFlag_of_setRegThenFlag rfl (toNat_half _) (droppedRight_iff _),
    writesRegThenFlag_of_setRegThenFlag rfl (toNat_double _) (droppedLeft_iff _)⟩

/-- Settles O37: the draw changes the random input alone, and its byte is masked before the one
register write. -/
theorem rndMasksADrawnByte : Obligations.RndMasksADrawnByte := by
  intro x kk s
  have h := exec_rnd x kk s
  have hreg : (s.drawByte.2.setReg x (s.drawByte.1 &&& kk)).advance.reg x = s.drawByte.1 &&& kk :=
    State.reg_setReg_self _ x _
  refine ⟨_, s.drawByte.1, h, hreg, ?masked, exec_otherRegsKept h, exec_pc h,
    onlyChanges_mono (exec_onlyChanges h) (by simp [writtenParts]), ?linedUp, ?free⟩
  case masked => rw [hreg, BitVec.and_assoc, BitVec.and_not_self]; exact BitVec.and_zero
  case linedUp =>
    intro w rest hrand
    rw [drawByte_cons s w rest hrand]
    exact ⟨rfl, rfl, rfl⟩
  case free =>
    intro hrand
    rw [drawByte_nil s hrand]
    exact ⟨rfl, hrand, rfl⟩

theorem toNat_glyphAddress {w : Byte} (h : w.toNat ≤ 15) : (glyphAddress w).toNat = 5 * w.toNat := by
  rw [glyphAddress, BitVec.toNat_ofNat, config_fontBase, config_glyphStride]
  omega

/-- Settles O40: the whole value is tested, and a digit's glyph address does not wrap. -/
theorem ldFPointsAtTheGlyph : Obligations.LdFPointsAtTheGlyph := by
  intro x s
  constructor
  · intro hdigit
    exact ⟨_, execLdF_next.2 ⟨hdigit, rfl⟩, toNat_glyphAddress hdigit, rfl,
      onlyChanges_advance (s.setI_onlyChanges_index _)⟩
  · intro hbig
    exact exec_eq_fault.2 (if_pos hbig)

end Sys2Proof.Machine

/-! SUPPORT. The memory transfers (43_index_timer_key.md R146 to R148, 20_memory.md R53): the checks
by their ranges, and the bytes a store leaves. -/

namespace Sys2Proof.Machine

open Sys2Proof.Claims

theorem firstFault_write_font {a n : Nat} (hn : 0 < n) (ha : a < 80) :
    firstFault writeFault a n = some (.writeProtected a) := by
  rw [firstFault_write, if_pos ⟨hn, ha⟩]

theorem firstFault_write_past {a n : Nat} (ha : 80 ≤ a) (hn : 0 < n) (hpast : 4095 < a + n) :
    firstFault writeFault a n = some (.addressOutOfRange (max a 4095) .write) := by
  rw [firstFault_write, if_neg (by rw [config_fontSize]; omega), config_memSize, if_pos ⟨hn, hpast⟩]

theorem firstFault_read_past {a n : Nat} (kind : AccessKind) (hn : 0 < n) (hpast : 4095 < a + n) :
    firstFault (readFault kind) a n = some (.addressOutOfRange (max a 4095) kind) := by
  rw [firstFault_read, config_memSize, if_pos ⟨hn, hpast⟩]

theorem exec_ldB_byteAt {x : Reg} {s t : State} (h : exec (.ldB x) s = .next t) {k : Nat} (hk : k < 3) :
    t.byteAt (s.i.toNat + k) = (bcdDigits (s.reg x)).getD k 0 := by
  obtain ⟨-, rfl⟩ := execLdB_next.1 h
  exact s.byteAt_storeBytes_inside s.i.toNat hk

theorem exec_stRegs_byteAt {x : Reg} {s t : State} (h : exec (.stRegs x) s = .next t) {r : Reg}
    (hr : r ≤ x) : t.byteAt (s.i.toNat + r.val) = s.reg r := by
  obtain ⟨-, rfl⟩ := execStRegs_next.1 h
  have hlt : r.val < (regsUpTo s x).length := by rw [length_regsUpTo]; exact Nat.lt_succ_of_le hr
  exact (s.byteAt_storeBytes_inside s.i.toNat hlt).trans (getD_regsUpTo s x r hr)

/-- The digits as numbers: each is below 10, so its byte holds it. -/
theorem toNat_bcdDigits (w : Byte) :
    ((bcdDigits w).getD 0 0).toNat = w.toNat / 100 ∧
    ((bcdDigits w).getD 1 0).toNat = w.toNat / 10 % 10 ∧
    ((bcdDigits w).getD 2 0).toNat = w.toNat % 10 := by
  have hlt := w.isLt
  refine ⟨?_, ?_, ?_⟩
  · exact (BitVec.toNat_ofNat _ _).trans (Nat.mod_eq_of_lt (by omega))
  · exact (BitVec.toNat_ofNat _ _).trans (Nat.mod_eq_of_lt (by omega))
  · exact (BitVec.toNat_ofNat _ _).trans (Nat.mod_eq_of_lt (by omega))

/-- Settles O41: in range the three digits are stored, out of range the check answers the lowest
failing address. -/
theorem ldBStoresDecimalDigits : Obligations.LdBStoresDecimalDigits := by
  intro x s
  refine ⟨fun hlo hhi => ?stores, fun hfont => ?font, fun hpast => ?past⟩
  case stores =>
    have h := (execLdB_next (x := x)).2 ⟨⟨hlo, hhi⟩, rfl⟩
    obtain ⟨hhundreds, htens, hones⟩ := toNat_bcdDigits (s.reg x)
    refine ⟨_, h, ?_, ?_, ?_, fun a ha => ?_, rfl,
      onlyChanges_advance (s.storeBytes_onlyChanges_mem _ _)⟩
    · exact (congrArg BitVec.toNat (exec_ldB_byteAt h (k := 0) (by decide))).trans hhundreds
    · exact (congrArg BitVec.toNat (exec_ldB_byteAt h (k := 1) (by decide))).trans htens
    · exact (congrArg BitVec.toNat (exec_ldB_byteAt h (k := 2) (by decide))).trans hones
    · exact s.byteAt_storeBytes_outside (by rw [length_bcdDigits]; omega)
  case font => exact exec_eq_fault.2 (firstFault_write_font (by decide) hfont)
  case past => exact exec_eq_fault.2 (firstFault_write_past (by omega) (by decide) (by omega))

/-- Settles O42: in range the registers up to `V[x]` are stored, out of range the check answers the
lowest failing address. -/
theorem bulkStoreWritesRegistersUpToX : Obligations.BulkStoreWritesRegistersUpToX := by
  intro x s
  refine ⟨fun hlo hhi => ?stores, fun hfont => ?font, fun hpast => ?past⟩
  case stores =>
    have h := (execStRegs_next (x := x)).2 ⟨⟨hlo, hhi⟩, rfl⟩
    refine ⟨_, h, fun r hr => exec_stRegs_byteAt h hr, fun a ha => ?_, rfl,
      onlyChanges_advance (s.storeBytes_onlyChanges_mem _ _)⟩
    exact s.byteAt_storeBytes_outside (by rw [length_regsUpTo]; omega)
  case font => exact exec_eq_fault.2 (firstFault_write_font (Nat.succ_pos _) hfont)
  case past =>
    exact exec_eq_fault.2 (firstFault_write_past (by omega) (Nat.succ_pos _) (by omega))

/-- Settles O43: in range the registers up to `V[x]` are loaded, past the end the check answers the
lowest failing address. -/
theorem bulkLoadReadsRegistersUpToX : Obligations.BulkLoadReadsRegistersUpToX := by
  intro x s
  refine ⟨fun hhi => ?loads, fun hpast => ?past⟩
  case loads =>
    have h : exec (.ldRegs x) s = .next (s.setRegs (regsLoadedUpTo s x)).advance :=
      execLdRegs_next.2 ⟨hhi, rfl⟩
    refine ⟨_, h, fun r hr => ?_, fun r hr => ?_, exec_pc h,
      onlyChanges_advance (s.setRegs_onlyChanges_regs _)⟩
    · rw [State.advance_reg, reg_setRegs_loaded, if_pos hr]
    · rw [State.advance_reg, reg_setRegs_loaded, if_neg (Fin.not_le.2 hr)]
  case past => exact exec_eq_fault.2 (firstFault_read_past .read (Nat.succ_pos _) (by omega))

/-- Settles O44: the store leaves `I`, so the load finds each `V[r]` where it was put; it reads no
more bytes than were stored. -/
theorem bulkStoreThenLoadKeepsRegisters : Obligations.BulkStoreThenLoadKeepsRegisters := by
  intro x y s t hyx h
  obtain ⟨⟨hlo, hhi⟩, ht⟩ := execStRegs_next.1 h
  have hi : t.i = s.i := exec_onlyChanges h .index (by simp [writtenParts])
  have hregs : ∀ r, t.reg r = s.reg r := exec_onlyChanges h .regs (by simp [writtenParts])
  have hfits : t.i.toNat + (y.val + 1) ≤ config.memSize := by
    have hle : y.val ≤ x.val := hyx
    rw [hi]
    omega
  refine ⟨_, execLdRegs_next.2 ⟨hfits, rfl⟩, fun r => ?_⟩
  rw [State.advance_reg, reg_setRegs_loaded, hi]
  split
  case isTrue hr => exact exec_stRegs_byteAt h (Nat.le_trans hr hyx)
  case isFalse => exact hregs r

theorem toNat_joinBytes (hi lo : Byte) : (joinBytes hi lo).toNat = hi.toNat * 256 + lo.toNat :=
  toNat_concat hi lo

/-- A fetch at `a` after anything that leaves both bytes in memory. -/
theorem fetch_setPc {t : State} {a : Word} (h : a.toNat + 1 < config.memSize) :
    ∃ op, fetch (t.setPc a) = .ok op ∧
      op.toNat = (t.byteAt a.toNat).toNat * 256 + (t.byteAt (a.toNat + 1)).toNat :=
  ⟨_, fetch_of_lt (s := t.setPc a) h, toNat_joinBytes _ _⟩

/-- Settles O45: the two bytes of the fetch are two bytes of the store. -/
theorem storesAreSeenByTheNextFetch : Obligations.StoresAreSeenByTheNextFetch := by
  intro x s t
  constructor
  · intro h p q a hq hqx ha
    obtain ⟨⟨hlo, hhi⟩, -⟩ := execStRegs_next.1 h
    have hle : q.val ≤ x.val := hqx
    have hpx : p ≤ x := Nat.le_of_lt (by omega)
    obtain ⟨op, hop, hval⟩ := fetch_setPc (t := t) (a := a) (by omega)
    have hp := exec_stRegs_byteAt h hpx
    have hq' : t.byteAt (a.toNat + 1) = s.reg q := by
      rw [ha, Nat.add_assoc, ← hq]
      exact exec_stRegs_byteAt h hqx
    exact ⟨op, hop, by rw [hval, ha, hp, ← ha, hq']⟩
  · intro h
    obtain ⟨⟨hlo, hhi⟩, -⟩ := execLdB_next.1 h
    obtain ⟨hhundreds, htens, -⟩ := toNat_bcdDigits (s.reg x)
    obtain ⟨op, hop, hval⟩ := fetch_setPc (t := t) (a := s.i) (by omega)
    have hfirst : t.byteAt s.i.toNat = _ := exec_ldB_byteAt h (k := 0) (by decide)
    refine ⟨op, hop, ?_⟩
    rw [hval, hfirst, exec_ldB_byteAt h (k := 1) (by decide), hhundreds, htens]

end Sys2Proof.Machine

/-! SUPPORT. The observers (00_scope.md R7, 10_state.md R28). -/

namespace Sys2Proof.Machine

/-- A list of rows of one length, row after row: entry `y * m + x` is entry `x` of row `y`. -/
theorem getD_flatten_of_rows {α : Type} {rows : List (List α)} {m : Nat}
    (hrows : ∀ row ∈ rows, row.length = m) {x y : Nat} (hx : x < m) (d : α) :
    rows.flatten.getD (y * m + x) d = (rows.getD y []).getD x d := by
  induction rows generalizing y with
  | nil => simp
  | cons row rest ih =>
    have hlen : row.length = m := hrows row List.mem_cons_self
    cases y with
    | zero => simp [List.getD_eq_getElem?_getD, List.getElem?_append_left, hlen, hx]
    | succ y =>
      have hskip : (y + 1) * m + x = row.length + (y * m + x) := by
        rw [hlen, Nat.succ_mul]
        omega
      rw [List.flatten_cons, hskip, List.getD_eq_getElem?_getD,
        List.getElem?_append_right (Nat.le_add_right _ _), Nat.add_sub_cancel_left,
        ← List.getD_eq_getElem?_getD, List.getD_cons_succ]
      exact ih fun r hr => hrows r (List.mem_cons_of_mem row hr)

/-- One row of the view (R28). -/
def rowView (row : Vector Bool 64) : List Byte := row.toList.map fun b => if b then 1 else 0

theorem display_eq (s : State) : display s = (s.fb.toList.map rowView).flatten := rfl

theorem length_rowView (row : Vector Bool 64) : (rowView row).length = 64 := by
  rw [rowView, List.length_map, Vector.length_toList]

theorem length_of_mem_rowViews (fb : FrameBuffer) : ∀ row ∈ fb.toList.map rowView, row.length = 64 := by
  intro row hrow
  obtain ⟨v, -, rfl⟩ := List.mem_map.1 hrow
  exact length_rowView v

theorem length_display (s : State) : (display s).length = 2048 := by
  have hsum : ((s.fb.toList.map rowView).map List.length) = List.replicate 32 64 := by
    refine List.eq_replicate_iff.2 ⟨by simp, fun n hn => ?_⟩
    obtain ⟨row, hrow, rfl⟩ := List.mem_map.1 hn
    exact length_of_mem_rowViews s.fb row hrow
  rw [display_eq, List.length_flatten, hsum]
  decide

theorem getD_display (s : State) (x : Column) (y : Row) :
    (display s).getD (y.val * 64 + x.val) 2 = if FrameBuffer.pixel s.fb x y = true then 1 else 0 := by
  rw [display_eq, getD_flatten_of_rows (length_of_mem_rowViews s.fb) x.isLt]
  simp [rowView, FrameBuffer.pixel]
  rfl

theorem snapshot_mem (s : State) : (snapshot s).mem = s.mem.readBytes 0 4095 := by
  rw [snapshot, config_memSize]

/-- Settles O53: the view is its rows one after the other, the bytes of the snapshot are reads in the
order of the addresses, and the stack is shown in reverse. -/
theorem observersShowPixelsBytesAndStack : Obligations.ObserversShowPixelsBytesAndStack := by
  intro s
  refine ⟨length_display s, getD_display s, ?length, ?bytes, fun w => List.reverse_cons⟩
  case length => rw [snapshot_mem, Memory.length_readBytes]
  case bytes =>
    intro a ha
    rw [snapshot_mem, Memory.getD_readBytes s.mem 0 4095 a ha, Nat.zero_add]
    rfl

end Sys2Proof.Machine

/-! SUPPORT. A sprite as the list of the display cells under its 1 bits (45_display.md R166). Drawing
plots each cell of the list once; no cell is in it twice, because a sprite is narrower than the
display and has fewer rows. -/

namespace Sys2Proof.Machine

open Sys2Proof.Claims

/-- Plots at every cell of a list, in order. -/
def plotAll (cells : List (Column × Row)) (d : FrameBuffer × Bool) : FrameBuffer × Bool :=
  cells.foldl (fun d c => plot c.1 c.2 d) d

/-- The cells under the 1 bits of one byte of a sprite. -/
def rowCells (vx : Byte) (y : Row) (w : Byte) : List (Column × Row) :=
  ((List.range 8).filter (spriteBit w)).map fun col => (spriteColumn vx col, y)

/-- The cells under the 1 bits of a sprite, from row number `row` on. -/
def spriteCells (vx vy : Byte) : Nat → List Byte → List (Column × Row)
  | _, [] => []
  | row, w :: ws => rowCells vx (spriteRow vy row) w ++ spriteCells vx vy (row + 1) ws

/-! ### Drawing is plotting the cells -/

theorem drawRow_eq_plotAll (vx : Byte) (y : Row) (w : Byte) (d : FrameBuffer × Bool) :
    drawRow vx y w d = plotAll (rowCells vx y w) d := by
  rw [drawRow, plotAll, rowCells, List.foldl_map, List.foldl_filter]

theorem drawRows_eq_plotAll (vx vy : Byte) (row : Nat) (ws : List Byte) (d : FrameBuffer × Bool) :
    drawRows vx vy row ws d = plotAll (spriteCells vx vy row ws) d := by
  induction ws generalizing row d with
  | nil => rfl
  | cons w ws ih =>
    rw [drawRows, ih, drawRow_eq_plotAll, spriteCells, plotAll, plotAll, plotAll, List.foldl_append]

/-! ### What plotting a list of different cells does -/

/-- Each cell of the list is toggled, and no other. -/
theorem pixel_plotAll {cells : List (Column × Row)} (h : cells.Nodup) (d : FrameBuffer × Bool)
    (x : Column) (y : Row) : FrameBuffer.pixel (plotAll cells d).1 x y =
      (FrameBuffer.pixel d.1 x y ^^ decide ((x, y) ∈ cells)) := by
  induction cells generalizing d with
  | nil => simp [plotAll]
  | cons c rest ih =>
    obtain ⟨hc, hrest⟩ := List.nodup_cons.1 h
    have hstep : plotAll (c :: rest) d = plotAll rest (plot c.1 c.2 d) := rfl
    rw [hstep, ih hrest, pixel_plot, Bool.xor_assoc]
    congr 1
    by_cases heq : (x, y) = c
    · subst heq
      simp [hc]
    · have hne : ¬(x = c.1 ∧ y = c.2) := fun hxy => heq (Prod.ext hxy.1 hxy.2)
      simp [hne, heq]

/-- A collision is a set pixel under a cell of the list, before the first plot. -/
theorem collision_plotAll {cells : List (Column × Row)} (h : cells.Nodup) (d : FrameBuffer × Bool) :
    (plotAll cells d).2 = true ↔
      d.2 = true ∨ ∃ c ∈ cells, FrameBuffer.pixel d.1 c.1 c.2 = true := by
  induction cells generalizing d with
  | nil => simp [plotAll]
  | cons c rest ih =>
    obtain ⟨hc, hrest⟩ := List.nodup_cons.1 h
    have hstep : plotAll (c :: rest) d = plotAll rest (plot c.1 c.2 d) := rfl
    have hkept : ∀ e ∈ rest,
        FrameBuffer.pixel (plot c.1 c.2 d).1 e.1 e.2 = FrameBuffer.pixel d.1 e.1 e.2 := by
      intro e he
      have hne : ¬(e.1 = c.1 ∧ e.2 = c.2) := fun hxy => hc (Prod.ext hxy.1 hxy.2 ▸ he)
      rw [pixel_plot, decide_eq_false hne, Bool.xor_false]
    rw [hstep, ih hrest, collision_plot, Bool.or_eq_true, or_assoc]
    simp only [List.mem_cons, or_and_right, exists_or, exists_eq_left]
    refine or_congr Iff.rfl (or_congr Iff.rfl (exists_congr fun e => and_congr_right fun he => ?_))
    rw [hkept e he]

/-! ### The cells of a sprite -/

theorem mem_rowCells {vx : Byte} {y : Row} {w : Byte} {c : Column × Row} :
    c ∈ rowCells vx y w ↔ ∃ col, col < 8 ∧ spriteBit w col = true ∧ c = (spriteColumn vx col, y) := by
  constructor
  · intro h
    obtain ⟨col, hmem, rfl⟩ := List.mem_map.1 h
    obtain ⟨hcol, hbit⟩ := List.mem_filter.1 hmem
    exact ⟨col, List.mem_range.1 hcol, hbit, rfl⟩
  · rintro ⟨col, hcol, hbit, rfl⟩
    exact List.mem_map.2 ⟨col, List.mem_filter.2 ⟨List.mem_range.2 hcol, hbit⟩, rfl⟩

theorem mem_spriteCells {vx vy : Byte} {row : Nat} {ws : List Byte} {c : Column × Row} :
    c ∈ spriteCells vx vy row ws ↔ ∃ k col, k < ws.length ∧ col < 8 ∧
      spriteBit (ws.getD k 0) col = true ∧ c = (spriteColumn vx col, spriteRow vy (row + k)) := by
  induction ws generalizing row with
  | nil => simp [spriteCells]
  | cons w ws ih =>
    rw [spriteCells, List.mem_append, mem_rowCells, ih]
    constructor
    · rintro (⟨col, hcol, hbit, rfl⟩ | ⟨k, col, hk, hcol, hbit, rfl⟩)
      · exact ⟨0, col, Nat.succ_pos _, hcol, hbit, rfl⟩
      · exact ⟨k + 1, col, Nat.succ_lt_succ hk, hcol, hbit, by rw [Nat.add_right_comm, Nat.add_assoc]⟩
    · rintro ⟨k, col, hk, hcol, hbit, rfl⟩
      cases k with
      | zero => exact .inl ⟨col, hcol, hbit, rfl⟩
      | succ k =>
        exact .inr ⟨k, col, Nat.lt_of_succ_lt_succ hk, hcol, hbit,
          by rw [Nat.add_right_comm, Nat.add_assoc]⟩

/-- Eight columns in a row are different columns of the display. -/
theorem spriteColumn_inj {vx : Byte} {p q : Nat} (hp : p < 8) (hq : q < 8)
    (h : spriteColumn vx p = spriteColumn vx q) : p = q := by
  have hval := congrArg Fin.val h
  rw [val_spriteColumn, val_spriteColumn] at hval
  omega

/-- Fewer than 32 rows in a row are different rows of the display. -/
theorem spriteRow_inj {vy : Byte} {p q : Nat} (hp : p < 16) (hq : q < 16)
    (h : spriteRow vy p = spriteRow vy q) : p = q := by
  have hval := congrArg Fin.val h
  rw [val_spriteRow, val_spriteRow] at hval
  omega

theorem nodup_rowCells (vx : Byte) (y : Row) (w : Byte) : (rowCells vx y w).Nodup := by
  have hcols : ((List.range 8).filter (spriteBit w)).Nodup := List.nodup_range.filter _
  refine List.pairwise_map.2 (hcols.imp_of_mem ?_)
  intro p q hp hq hne heq
  have hp8 : p < 8 := List.mem_range.1 (List.mem_filter.1 hp).1
  have hq8 : q < 8 := List.mem_range.1 (List.mem_filter.1 hq).1
  exact hne (spriteColumn_inj hp8 hq8 (Prod.mk.inj heq).1)

theorem nodup_spriteCells (vx vy : Byte) {row : Nat} {ws : List Byte} (h : row + ws.length ≤ 16) :
    (spriteCells vx vy row ws).Nodup := by
  induction ws generalizing row with
  | nil => exact List.nodup_nil
  | cons w ws ih =>
    rw [List.length_cons] at h
    refine List.nodup_append.2 ⟨nodup_rowCells vx _ w, ih (by omega), ?_⟩
    rintro c hc _ he rfl
    obtain ⟨p, -, -, rfl⟩ := mem_rowCells.1 hc
    obtain ⟨k, col, hk, -, -, heq⟩ := mem_spriteCells.1 he
    have hrow : row = row + 1 + k := spriteRow_inj (by omega) (by omega) (Prod.mk.inj heq).2
    omega

/-! ### `DRW` -/

/-- The cells of `DRW Vx, Vy, n` are the pixels under the sprite's 1 bits (R166). -/
theorem mem_spriteCells_iff_spriteAt {s : State} {x y : Reg} {n : Nat} {px : Column} {py : Row} :
    (px, py) ∈ spriteCells (s.reg x) (s.reg y) 0 (spriteBytes s n) ↔ SpriteAt s x y n px py := by
  have hlen : (spriteBytes s n).length = n := Memory.length_readBytes _ _ _
  have hbyte : ∀ k, k < n → (spriteBytes s n).getD k 0 = s.byteAt (s.i.toNat + k) :=
    fun k hk => Memory.getD_readBytes _ _ _ _ hk
  rw [mem_spriteCells, hlen]
  refine exists_congr fun k => exists_congr fun col => and_congr_right fun hk => ?_
  rw [hbyte k hk, Prod.mk.injEq, Fin.ext_iff, Fin.ext_iff, val_spriteColumn, val_spriteRow, Nat.zero_add]
  rfl

/-- What `DRW` draws and reports, by the cells of its sprite. -/
theorem exec_drw {x y : Reg} {n : Fin 16} {s t : State} (h : exec (.drw x y n) s = .next t) :
    t.fb = (plotAll (spriteCells (s.reg x) (s.reg y) 0 (spriteBytes s n.val)) (s.fb, false)).1 ∧
    t.reg VF =
      flagByte (plotAll (spriteCells (s.reg x) (s.reg y) 0 (spriteBytes s n.val)) (s.fb, false)).2 := by
  obtain ⟨-, rfl⟩ := execDrw_next.1 h
  rw [drawSprite, drawRows_eq_plotAll]
  exact ⟨rfl, State.reg_setReg_self _ VF _⟩

theorem nodup_drw_cells (x y : Reg) (n : Fin 16) (s : State) :
    (spriteCells (s.reg x) (s.reg y) 0 (spriteBytes s n.val)).Nodup := by
  have hlen : (spriteBytes s n.val).length = n.val := Memory.length_readBytes _ _ _
  exact nodup_spriteCells _ _ (by omega)

theorem exec_drw_pixel_under {x y : Reg} {n : Fin 16} {s t : State} (h : exec (.drw x y n) s = .next t)
    {px : Column} {py : Row} (hp : SpriteAt s x y n.val px py) :
    FrameBuffer.pixel t.fb px py = !FrameBuffer.pixel s.fb px py := by
  rw [(exec_drw h).1, pixel_plotAll (nodup_drw_cells x y n s),
    decide_eq_true (mem_spriteCells_iff_spriteAt.2 hp), Bool.xor_true]

theorem exec_drw_pixel_beside {x y : Reg} {n : Fin 16} {s t : State} (h : exec (.drw x y n) s = .next t)
    {px : Column} {py : Row} (hp : ¬SpriteAt s x y n.val px py) :
    FrameBuffer.pixel t.fb px py = FrameBuffer.pixel s.fb px py := by
  rw [(exec_drw h).1, pixel_plotAll (nodup_drw_cells x y n s),
    decide_eq_false (mt mem_spriteCells_iff_spriteAt.1 hp), Bool.xor_false]

theorem flagByte_eq_one_iff (f : Bool) : flagByte f = 1 ↔ f = true := by
  cases f with
  | false => decide
  | true => decide

theorem exec_drw_VF {x y : Reg} {n : Fin 16} {s t : State} (h : exec (.drw x y n) s = .next t) :
    t.reg VF = 1 ↔ ∃ px py, SpriteAt s x y n.val px py ∧ FrameBuffer.pixel s.fb px py = true := by
  rw [(exec_drw h).2, flagByte_eq_one_iff, collision_plotAll (nodup_drw_cells x y n s)]
  constructor
  · rintro (hearlier | ⟨⟨px, py⟩, hmem, hset⟩)
    · simp at hearlier
    · exact ⟨px, py, mem_spriteCells_iff_spriteAt.1 hmem, hset⟩
  · rintro ⟨px, py, hp, hset⟩
    exact .inr ⟨(px, py), mem_spriteCells_iff_spriteAt.2 hp, hset⟩

/-- Settles O51: the cells of the sprite are toggled, a collision is a set pixel under one of them,
and the check answers the lowest byte past the end. -/
theorem drwTogglesTheSpriteAndReportsCollision :
    Obligations.DrwTogglesTheSpriteAndReportsCollision := by
  intro x y n s
  refine ⟨fun hrange => ?draws, fun hn hpast => exec_eq_fault.2 (firstFault_read_past .read hn hpast)⟩
  have h : exec (.drw x y n) s = .next _ := execDrw_next.2 ⟨hrange, rfl⟩
  refine ⟨_, h, fun px py => ⟨exec_drw_pixel_under h, exec_drw_pixel_beside h⟩, (exec_drw_VF h).2,
    fun hnone => ?clear, exec_otherRegsKept h, exec_pc h,
    onlyChanges_mono (exec_onlyChanges h) (by simp [writtenParts])⟩
  case clear =>
    exact ((onlyFlagWritersTouchVF _ _ _ h).1 rfl).resolve_right (mt (exec_drw_VF h).1 hnone)

/-- Coordinates other than `VF` make the second of two draws the same sprite as the first. -/
theorem spriteAt_after_drw {x y : Reg} {n : Fin 16} {s t : State} (hx : x ≠ VF) (hy : y ≠ VF)
    (h : exec (.drw x y n) s = .next t) (px : Column) (py : Row) :
    SpriteAt t x y n.val px py ↔ SpriteAt s x y n.val px py := by
  have hregs := exec_otherRegsKept h
  have hi : t.i = s.i := exec_onlyChanges h .index (by simp [writtenParts])
  have hmem : ∀ a, t.byteAt a = s.byteAt a := exec_onlyChanges h .mem (by simp [writtenParts])
  have hvx : t.reg x = s.reg x := hregs x (by simpa [destRegs] using hx)
  have hvy : t.reg y = s.reg y := hregs y (by simpa [destRegs] using hy)
  simp only [SpriteAt, hi, hmem, hvx, hvy]

/-- Settles O52: the second draw toggles the same cells again, and a pixel under one of them is set
before the second draw exactly when it was not before the first. -/
theorem drawingTwiceRestoresThePixels : Obligations.DrawingTwiceRestoresThePixels := by
  intro x y n s t hx hy h
  have hsprite := spriteAt_after_drw hx hy h
  have hi : t.i = s.i := exec_onlyChanges h .index (by simp [writtenParts])
  have h2 : exec (.drw x y n) t = .next _ := execDrw_next.2 ⟨hi ▸ (execDrw_next.1 h).1, rfl⟩
  refine ⟨_, h2, fun px py => ?pixels, ?flag⟩
  case pixels =>
    by_cases hp : SpriteAt s x y n.val px py
    · rw [exec_drw_pixel_under h2 ((hsprite px py).2 hp), exec_drw_pixel_under h hp, Bool.not_not]
    · rw [exec_drw_pixel_beside h2 (mt (hsprite px py).1 hp), exec_drw_pixel_beside h hp]
  case flag =>
    rw [exec_drw_VF h2]
    refine exists_congr fun px => exists_congr fun py => ?_
    rw [hsprite]
    refine and_congr_right fun hp => ?_
    rw [exec_drw_pixel_under h hp, Bool.not_eq_true']

end Sys2Proof.Machine
